-- ==== Sys2Proof/Config.lean ====
section
/-! DEFINITION. What an implementation of the Intcode Machine fixes (00_scope.md R5 to R7): the cell width's
least and default value. The width itself and LEN are parameters of a run and stand in State (log 1, log 2).
The spec leaves no value open inside a run (00_scope.md R9), so there is no free value here. -/

namespace Sys2Proof

/-- The least cell width: the narrowest cell that holds the opcode value 99 (00_scope.md R5). -/
def Config.minWidth : Nat := 7

/-- The default cell width `W = 32` (00_scope.md R5, 92_eei_decisions.md D1). -/
def Config.defaultWidth : Nat := 32

end Sys2Proof
end

