-- ==== Sys2Proof/Word.lean ====
section
/-! DEFINITION. The machine's one kind of datum (00_scope.md section 6): a cell value, a natural number below
`2^W`. An address is a cell value used as an index, so cells and addresses have one type, Nat; address comparisons
and sums are over the natural numbers and never wrap (10_state.md R16). No instruction looks inside a cell
(20_memory.md R30, R33), so a cell is a number and not a bit vector. -/

namespace Sys2Proof

/-- `v` is the value of a cell of `w` bits: `0 <= v < 2^w` (00_scope.md R5). -/
abbrev Fits (w v : Nat) : Prop := v < 2 ^ w

end Sys2Proof
end

