-- ==== Sys2Proof/Syntax.lean ====
section
/-! DEFINITION. The instruction set whole: one constructor for each row of spec/opcode_table.json
(30_encoding.md R50, R56). -/

namespace Sys2Proof

/-- The three instructions. The fields of ADD and MULT are the three address cells of format Q
(30_encoding.md R46): each names the cell that holds an operand or receives the result (R49). -/
inductive Instr where
  /-- ADD, opcode 1 (40_arithmetic.md R58). -/
  | add (srcAddr1 srcAddr2 dstAddr : Nat)
  /-- MULT, opcode 2 (40_arithmetic.md R59). -/
  | mult (srcAddr1 srcAddr2 dstAddr : Nat)
  /-- HALT, opcode 99 (41_control.md R67). -/
  | halt
  deriving DecidableEq, Repr

end Sys2Proof
end

