-- ==== Sys2Proof/WellFormed.lean ====
section
/-! DEFINITION. Which instruction terms stand for cells of `w` bits. An address field has no illegal value
(30_encoding.md R52); it must only be one whole cell (R46, R49). -/

namespace Sys2Proof

/-- Each address field of `i` fits one cell of `w` bits (30_encoding.md R46). -/
def Instr.wellFormed (w : Nat) : Instr → Bool
  | .add a b c => decide (Fits w a) && decide (Fits w b) && decide (Fits w c)
  | .mult a b c => decide (Fits w a) && decide (Fits w b) && decide (Fits w c)
  | .halt => true

end Sys2Proof
end

