-- ==== Sys2Proof/Decode.lean ====
section
/-! DEFINITION. From cells to instructions and back (30_encoding.md). An instruction is not a bit string with
fields: each field is one whole cell (R45), so the decoder reads a list of cells, opcode cell first. After it the
encoder, and the packing of cells into one number that spec/opcode_table.json's bit numbering uses. -/

namespace Sys2Proof

/-- The opcode cell value of ADD (30_encoding.md R50). -/
def opcodeAdd : Nat := 1

/-- The opcode cell value of MULT (30_encoding.md R50). -/
def opcodeMult : Nat := 2

/-- The opcode cell value of HALT (30_encoding.md R50). -/
def opcodeHalt : Nat := 99

/-- STRIDE: the cells of one instruction window, and what a completed ADD or MULT adds to `ip`
(30_encoding.md R45, 00_scope.md R7). -/
def stride : Nat := 4

/-- The operation an opcode cell selects. -/
inductive Opcode where
  | add
  | mult
  | halt
  deriving DecidableEq, Repr

/-- Why a list of cells is no instruction. -/
inductive DecodeError where
  /-- there is no opcode cell (60_exceptions.md R75, site (i)) -/
  | noCell
  /-- the opcode cell holds `v`, outside 1, 2 and 99 (30_encoding.md R51) -/
  | invalidOpcode (v : Nat)
  /-- the opcode is ADD's or MULT's and one of the three address cells does not exist (60_exceptions.md R75,
  site (ii)) -/
  | windowCutOff
  deriving DecidableEq, Repr

/-- The decoder of 30_encoding.md R53 on the opcode cell: the whole value is compared (R50). -/
def decodeOpcode (v : Nat) : Option Opcode :=
  if v = opcodeAdd then some .add
  else if v = opcodeMult then some .mult
  else if v = opcodeHalt then some .halt
  else none

/-- The three address cells of format Q, and the cells after them (30_encoding.md R46). -/
def quadFields (make : Nat → Nat → Nat → Instr) :
    List Nat → Except DecodeError (Instr × List Nat)
  | a :: b :: c :: rest => .ok (make a b c, rest)
  | _ => .error .windowCutOff

/-- The instruction at the head of a list of cells, with the cells that are not part of it. The opcode is looked
at before any other cell, and HALT and an invalid opcode look at no other (30_encoding.md R47, 41_control.md
R64). -/
def decode : List Nat → Except DecodeError (Instr × List Nat)
  | [] => .error .noCell
  | v :: rest =>
    match decodeOpcode v with
    | some .add => quadFields .add rest
    | some .mult => quadFields .mult rest
    | some .halt => .ok (.halt, rest)
    | none => .error (.invalidOpcode v)

/-- The cells of an instruction: format Q for ADD and MULT, format H for HALT (30_encoding.md R46, R47, R55). -/
def encode : Instr → List Nat
  | .add a b c => [opcodeAdd, a, b, c]
  | .mult a b c => [opcodeMult, a, b, c]
  | .halt => [opcodeHalt]

/-- The first `n` cells of `w` bits of the number `x`, the least significant cell first. -/
def cellsOfWord (w : Nat) : Nat → Nat → List Nat
  | 0, _ => []
  | n + 1, x => x % 2 ^ w :: cellsOfWord w n (x / 2 ^ w)

/-- Cells of `w` bits packed into one number, the first cell in the least significant bits. -/
def wordOfCells (w : Nat) : List Nat → Nat
  | [] => 0
  | v :: rest => v + 2 ^ w * wordOfCells w rest

/-- The instruction whose cells are packed into `x`; bits from `nbits` up to a whole window are 0. -/
def decodeWord (w nbits x : Nat) : Option Instr :=
  match decode (cellsOfWord w stride (x % 2 ^ nbits)) with
  | .ok (i, _) => some i
  | .error _ => none

/-- An instruction's cells packed into one number. -/
def encodeWord (w : Nat) (i : Instr) : Nat := wordOfCells w (encode i)

/-- `decodeWord` at the width spec/opcode_table.json is written for, `W = 32` (30_encoding.md R56). -/
def decodeTableWord (nbits w : Nat) : Option Instr := decodeWord Config.defaultWidth nbits w

end Sys2Proof
end

