-- ==== Sys2Proof/Machine/State.lean ====
section
/-! DEFINITION. The machine's state as plain data (10_state.md R13 to R25), the reasons a step can stop, and the
state after reset. -/

namespace Sys2Proof.Machine

/-- The run state `state` (10_state.md R18). -/
inductive RunState where
  | running
  | halted
  | faulted
  deriving DecidableEq, Repr

/-- The fault register `fcause` (10_state.md R19). -/
inductive FaultCause where
  | none
  | invalidOpcode
  | addressOutOfRange
  deriving DecidableEq, Repr

/-- What `raise F(info)` is given: the machine's two faults, each with the number it records
(60_exceptions.md R74, R75). A raise is a NEXT state of the machine, never an outcome `fault` (log 6). -/
inductive Raise where
  | invalidOpcode (v : Nat)
  | addressOutOfRange (addr : Nat)
  deriving DecidableEq, Repr

/-- The memory of one run (10_state.md R15): LEN and the cells that hold something other than 0, by rising
address. A cell below LEN that is not listed holds 0; a cell at or above LEN does not exist (log 4). -/
structure Memory where
  len : Nat
  cells : List (Nat × Nat)
  deriving DecidableEq, Repr

/-- The five elements of 10_state.md R13 (`mem`, `ip`, `state`, `fcause`, `fvalue`) and the run's parameter W as
`width` (00_scope.md R5, log 1); the parameter LEN is `mem.len` (00_scope.md R6). -/
structure State where
  width : Nat
  mem : Memory
  ip : Nat
  state : RunState
  fcause : FaultCause
  fvalue : Nat
  deriving DecidableEq, Repr

/-- Why a step does not exist. These are the model's own names: the machine's faults are next states (log 5). -/
inductive Fault where
  /-- raised by `step` when `state` is HALTED: no step exists (10_state.md R18); safe -/
  | noStepWhenHalted
  /-- raised by `step` when `state` is FAULTED: no step exists (10_state.md R18, 60_exceptions.md R79); safe -/
  | noStepWhenFaulted
  deriving DecidableEq, Repr

/-- What the model does not run. -/
inductive Refusal where
  /-- raised by `exec` for an instruction without a meaning (there is none such in this model); safe -/
  | notModelled (mnemonic : String)
  /-- raised by the host's load: the image has more than `2^W` numbers (30_encoding.md R54, D17); safe -/
  | imageTooLong
  /-- raised by the host's load: a number of the image does not fit a cell (30_encoding.md R54, D17); safe -/
  | imageValueTooWide
  /-- raised by the host's seeding: the template has fewer than 3 cells (70_reset_and_hazards.md R96); safe -/
  | seedMemoryTooShort
  /-- raised by the host's seeding: a seed does not fit a cell (70_reset_and_hazards.md R96); safe -/
  | seedTooWide
  deriving DecidableEq, Repr

/-- The machine right after reset (10_state.md R25, 70_reset_and_hazards.md R91), at the default width and with
no image loaded, so LEN is 0 and no cell exists (log 1, log 2). -/
def State.reset : State where
  width := Config.defaultWidth
  mem := { len := 0, cells := [] }
  ip := 0
  state := .running
  fcause := .none
  fvalue := 0

end Sys2Proof.Machine
end

