-- ==== Sys2Proof/Machine/Ops.lean ====
section
/-! DEFINITION. The named operations over memory and registers: reading and writing a cell (20_memory.md R31,
R32), taking a fault (60_exceptions.md R78), advancing `ip` (10_state.md R16), halting (41_control.md R67),
starting a run (70_reset_and_hazards.md R91) and fetching (41_control.md R64). -/

namespace Sys2Proof.Machine

/-! ### Memory -/

/-- What a cell below LEN that the list does not name holds (log 4). -/
def unlistedCell : Nat := 0

/-- The cell at `a` in a list of (address, cell) pairs. -/
def lookupCell (a : Nat) : List (Nat × Nat) → Nat
  | [] => unlistedCell
  | p :: rest => if p.1 = a then p.2 else lookupCell a rest

/-- The list without the cell at `a`. -/
def eraseCell (a : Nat) : List (Nat × Nat) → List (Nat × Nat)
  | [] => []
  | p :: rest => if p.1 = a then eraseCell a rest else p :: eraseCell a rest

/-- The pair `(a, v)` put before the first pair of a higher address. -/
def insertCell (a : Nat) (v : Nat) : List (Nat × Nat) → List (Nat × Nat)
  | [] => [(a, v)]
  | p :: rest => if a < p.1 then (a, v) :: p :: rest else p :: insertCell a v rest

/-- The list with the cell at `a` holding `v`, in the canonical form: a cell that holds what an unlisted cell
holds is not listed. -/
def putCell (a : Nat) (v : Nat) (cells : List (Nat × Nat)) : List (Nat × Nat) :=
  if v = unlistedCell then eraseCell a cells else insertCell a v (eraseCell a cells)

/-- `mem[a]`, meant for `a < LEN` (00_scope.md section 6). -/
def Memory.cell (m : Memory) (a : Nat) : Nat := lookupCell a m.cells

/-- The cell at `a` where it exists: an address is valid if and only if it is below LEN (20_memory.md R29). -/
def Memory.read (m : Memory) (a : Nat) : Option Nat :=
  if a < m.len then some (m.cell a) else none

/-- `mem[a] <- v`; LEN does not change (10_state.md R15, 20_memory.md R32). -/
def Memory.set (m : Memory) (a : Nat) (v : Nat) : Memory :=
  { m with cells := putCell a v m.cells }

/-- The memory with `vs` at `a`, `a+1`, ..., made long enough to hold them; a cell that comes to exist without
being written holds 0 (log 9). -/
def Memory.place (m : Memory) (a : Nat) : List Nat → Memory
  | [] => m
  | v :: rest => (Memory.set { m with len := max m.len (a + 1) } a v).place (a + 1) rest

/-- The memory that holds an image: the `i`-th number at address `i`, and LEN the count of numbers
(30_encoding.md R54). -/
def Memory.ofImage (image : List Nat) : Memory := Memory.place { len := 0, cells := [] } 0 image

/-- The canonical form, and the bounds of a memory of `w`-bit cells: LEN is at most `2^w` (00_scope.md R6), the
listed addresses rise and are below LEN, and a listed cell fits and differs from an unlisted one. -/
abbrev Memory.wf (w : Nat) (m : Memory) : Prop :=
  m.len ≤ 2 ^ w ∧ m.cells.Pairwise (fun p q => p.1 < q.1) ∧
    ∀ p ∈ m.cells, p.1 < m.len ∧ p.2 ≠ unlistedCell ∧ Fits w p.2

/-! ### Access primitives -/

/-- `MemRead(addr, 1)` (20_memory.md R31): a read changes no state. -/
def memRead (s : State) (addr : Nat) : Except Raise Nat :=
  if s.mem.len ≤ addr then .error (.addressOutOfRange addr) else .ok (s.mem.cell addr)

/-- The bounds check of one address (20_memory.md R38). -/
def checkAddress (s : State) (addr : Nat) : Except Raise Unit :=
  if s.mem.len ≤ addr then .error (.addressOutOfRange addr) else .ok ()

/-- `MemWrite(addr, 1, v)` (20_memory.md R32). -/
def memWrite (s : State) (addr : Nat) (v : Nat) : Except Raise State :=
  if s.mem.len ≤ addr then .error (.addressOutOfRange addr)
  else .ok { s with mem := s.mem.set addr v }

/-! ### The registers -/

/-- The cause a raise records in `fcause` (60_exceptions.md R74, R75). -/
def Raise.cause : Raise → FaultCause
  | .invalidOpcode _ => .invalidOpcode
  | .addressOutOfRange _ => .addressOutOfRange

/-- The number a raise records in `fvalue` (10_state.md R20). -/
def Raise.info : Raise → Nat
  | .invalidOpcode v => v
  | .addressOutOfRange addr => addr

/-- `raise F(info)`: the machine's one way into FAULTED (60_exceptions.md R78). `ip` and memory stay. There is no
return from it beside it: only reset leads out of FAULTED (R79, R81), and that is `startRun`. -/
def State.raise (s : State) (r : Raise) : State :=
  { s with state := .faulted, fcause := r.cause, fvalue := r.info }

/-- `ip <- ip + 4`, the one change of `ip` (41_control.md R65). -/
def State.advance (s : State) : State := { s with ip := s.ip + stride }

/-- `state <- HALTED` (41_control.md R67). -/
def State.halt (s : State) : State := { s with state := .halted }

/-- Reset with memory `m` loaded, for a machine of `w`-bit cells (70_reset_and_hazards.md R91): from any state and
at power-on alike (R92). -/
def startRun (w : Nat) (m : Memory) : State where
  width := w
  mem := m
  ip := 0
  state := .running
  fcause := .none
  fvalue := 0

/-- The 2-bit encoding of `state` (10_state.md R18). -/
def RunState.code : RunState → Nat
  | .running => 0
  | .halted => 1
  | .faulted => 2

/-- The 2-bit encoding of `fcause` (10_state.md R19). -/
def FaultCause.code : FaultCause → Nat
  | .none => 0
  | .invalidOpcode => 1
  | .addressOutOfRange => 2

/-! ### Fetch -/

/-- The cells that exist among the `n` cells from `a` on. -/
def fetchCells (m : Memory) (a : Nat) : Nat → List Nat
  | 0 => []
  | n + 1 =>
    match m.read a with
    | some v => v :: fetchCells m (a + 1) n
    | none => []

/-- The cells of the window at `ip`, up to the end of memory (30_encoding.md R45). Reads have no side effect
(20_memory.md R35), so listing cells that HALT or an invalid opcode does not look at changes nothing. -/
def fetchWindow (s : State) : List Nat := fetchCells s.mem s.ip stride

/-- What a window that is no instruction raises: the fetch address, the offending value, or LEN as the lowest
address of the window that does not exist (60_exceptions.md R74, R75 sites (i) and (ii), 40_arithmetic.md R57). -/
def fetchRaise (s : State) : DecodeError → Raise
  | .noCell => .addressOutOfRange s.ip
  | .invalidOpcode v => .invalidOpcode v
  | .windowCutOff => .addressOutOfRange s.mem.len

/-- An attempt's end: the completed state, or the state before it with the fault taken (60_exceptions.md R78). -/
def settle (s : State) : Except Raise State → Host.Outcome State Fault Refusal
  | .ok t => .next t
  | .error r => .next (s.raise r)

end Sys2Proof.Machine
end

