-- ==== Sys2Proof/Machine/Flags.lean ====
section
/-! DEFINITION. The ALU functions (40_arithmetic.md R58 to R61). The machine has no flags, no condition codes and
no predicates (10_state.md R21): what other machines would flag, a result that does not fit a cell, is dropped and
recorded nowhere. It is named here only so that a claim can take 'no step overflowed' as its premise
(40_arithmetic.md R60, 93_implementation_defined.md U2). -/

namespace Sys2Proof.Machine

/-- The low `w` bits of a natural number: its residue modulo `2^w` (40_arithmetic.md R60). -/
def narrow (w n : Nat) : Nat := n % 2 ^ w

/-- `f_ADD` (40_arithmetic.md R58, R60). -/
def aluAdd (w : Nat) (x y : Nat) : Nat := narrow w (x + y)

/-- `f_MULT` (40_arithmetic.md R59, R60). -/
def aluMult (w : Nat) (x y : Nat) : Nat := narrow w (x * y)

/-- The true sum does not fit a cell; the machine records this nowhere. -/
def addOverflows (w : Nat) (x y : Nat) : Bool := decide (2 ^ w ≤ x + y)

/-- The true product does not fit a cell; the machine records this nowhere. -/
def multOverflows (w : Nat) (x y : Nat) : Bool := decide (2 ^ w ≤ x * y)

end Sys2Proof.Machine
end

