-- ==== Sys2Proof/Machine/Operands.lean ====
section
/-! DEFINITION. The one operand form, memory-indirect absolute (30_encoding.md R49, 41_control.md R69), and the
procedure ADD and MULT share (40_arithmetic.md R57). -/

namespace Sys2Proof.Machine

/-- The whole window of ADD or MULT must exist; a cut-off window reports LEN (40_arithmetic.md R57 step 1). -/
def checkWindow (s : State) : Except Raise Unit :=
  if s.mem.len ≤ s.ip + 3 then .error (.addressOutOfRange s.mem.len) else .ok ()

/-- An operand: the cell the address field names, nothing added, scaled or masked (41_control.md R69). -/
def operandValue (s : State) (field : Nat) : Except Raise Nat := memRead s field

/-- Steps 1 and 5 to 10 of `QuadExecute(f)` (40_arithmetic.md R57), in its order; steps 2 to 4, the reads of the
three address fields, are the fetch, and `a`, `b`, `c` are what they read. -/
def quadAttempt (f : Nat → Nat → Nat) (a b c : Nat) (s : State) : Except Raise State :=
  match checkWindow s with
  | .error r => .error r
  | .ok () =>
    match operandValue s a with
    | .error r => .error r
    | .ok va =>
      match operandValue s b with
      | .error r => .error r
      | .ok vb =>
        match checkAddress s c with
        | .error r => .error r
        | .ok () =>
          match memWrite s c (f va vb) with
          | .error r => .error r
          | .ok t => .ok t.advance

/-- `QuadExecute(f)` (40_arithmetic.md R57): a fault ends it with no cell written and `ip` not advanced. -/
def quadExecute (f : Nat → Nat → Nat) (a b c : Nat) (s : State) :
    Host.Outcome State Fault Refusal :=
  settle s (quadAttempt f a b c s)

end Sys2Proof.Machine
end

