-- ==== Sys2Proof/Machine/Arithmetic.lean ====
section
/-! DEFINITION. The arithmetic family: ADD and MULT (40_arithmetic.md). -/

namespace Sys2Proof.Machine

/-- ADD: `mem[c] <- (mem[a] + mem[b]) mod 2^W`, `ip <- ip + 4` (40_arithmetic.md R58). -/
def execAdd (a b c : Nat) (s : State) : Host.Outcome State Fault Refusal :=
  quadExecute (aluAdd s.width) a b c s

/-- MULT: `mem[c] <- (mem[a] * mem[b]) mod 2^W`, `ip <- ip + 4` (40_arithmetic.md R59). -/
def execMult (a b c : Nat) (s : State) : Host.Outcome State Fault Refusal :=
  quadExecute (aluMult s.width) a b c s

end Sys2Proof.Machine
end

