-- ==== Sys2Proof/Machine/Control.lean ====
section
/-! DEFINITION. The control family: HALT, the only instruction that concerns the environment (41_control.md R67,
R70). -/

namespace Sys2Proof.Machine

/-- HALT: `state <- HALTED`; memory, `ip`, `fcause` and `fvalue` stay (41_control.md R67). -/
def execHalt (s : State) : Host.Outcome State Fault Refusal := .next s.halt

end Sys2Proof.Machine
end

