-- ==== Sys2Proof/Machine/Step.lean ====
section
/-! DEFINITION. One step (41_control.md R64), and the loading of one instruction where the next step fetches. -/

namespace Sys2Proof.Machine

/-- One step: fetch, decode, execute, or take the fault of a window that is no instruction (41_control.md R64).
In HALTED and FAULTED no step exists (10_state.md R18, log 5). -/
def step (s : State) : Host.Outcome State Fault Refusal :=
  match s.state with
  | .halted => .fault .noStepWhenHalted
  | .faulted => .fault .noStepWhenFaulted
  | .running =>
    match decode (fetchWindow s) with
    | .ok (i, _) => exec i s
    | .error e => .next (s.raise (fetchRaise s e))

/-- `s` with the instruction whose cells are packed into `w` loaded at `ip`, a whole window of cells, and the
machine running (log 9). -/
def State.withFetchWord (s : State) (nbits w : Nat) : State :=
  { s with
    mem := s.mem.place s.ip (cellsOfWord s.width stride (w % 2 ^ nbits))
    state := .running }

end Sys2Proof.Machine
end

