-- ==== Sys2Proof/Machine/Run.lean ====
section
/-! DEFINITION. A run: `step` repeated while the state is RUNNING (00_scope.md R9, 41_control.md R71), and what
the host reads at its end (41_control.md R72, 60_exceptions.md R82). -/

namespace Sys2Proof.Machine

/-- At most `n` steps; a state in which no step exists stays (10_state.md R18). -/
def runSteps : Nat → State → State
  | 0, s => s
  | n + 1, s =>
    match step s with
    | .next t => runSteps n t
    | .fault _ => s
    | .refused _ => s

/-- The most steps a run can take: `floor(LEN/4) + 1` (70_reset_and_hazards.md R106). -/
def stepBound (s : State) : Nat := s.mem.len / stride + 1

/-- The run to its end (41_control.md R71). -/
def runToEnd (s : State) : State := runSteps (stepBound s) s

/-- The result cell the host reads (20_memory.md R37). -/
def resultAddress : Nat := 0

/-- The result of a run: `mem[0]` of a HALTED machine, and nothing of any other (41_control.md R72). -/
def hostResult (s : State) : Option Nat :=
  match s.state with
  | .halted => s.mem.read resultAddress
  | .running => none
  | .faulted => none

/-- The report of a run's end in the form the document recommends (60_exceptions.md R82): how it ended, the
offending number, and the position. -/
inductive Report where
  | halted
  | invalidOpcode (value position : Nat)
  | addressOutOfRange (address position : Nat)
  deriving DecidableEq, Repr

/-- What the host reads of `state`, `fcause`, `fvalue` and `ip` (60_exceptions.md R82, 10_state.md R17); there is
none while the machine is RUNNING (10_state.md R27). -/
def report (s : State) : Option Report :=
  match s.state with
  | .running => none
  | .halted => some .halted
  | .faulted =>
    match s.fcause with
    | .none => none
    | .invalidOpcode => some (.invalidOpcode s.fvalue s.ip)
    | .addressOutOfRange => some (.addressOutOfRange s.fvalue s.ip)

end Sys2Proof.Machine
end

