-- ==== Sys2Proof/Machine/HostProtocol.lean ====
section
/-! DEFINITION. The host's procedures around the block (70_reset_and_hazards.md section 3, 30_encoding.md R54,
R55): loading an image, the seeded run, part 1, the parameter search, and the listing syntax. They are host
software, not behaviour of the block; no definition of the machine uses them. -/

namespace Sys2Proof.Machine

/-- One line of a listing (30_encoding.md R55). -/
inductive Line where
  | code (i : Instr)
  | data (values : List Nat)
  deriving DecidableEq, Repr

/-- The cells a line emits (30_encoding.md R55). -/
def Line.emit : Line → List Nat
  | .code i => encode i
  | .data values => values

/-- The image of a listing: the cells of its lines in order, no padding (30_encoding.md R55). -/
def assemble (lines : List Line) : List Nat := lines.flatMap Line.emit

/-- Loading an image in reset and releasing reset (70_reset_and_hazards.md R91). An image that is too long, or
holds a number that does not fit a cell, is refused and no run happens (30_encoding.md R54, D17). -/
def loadImage (w : Nat) (image : List Nat) : Except Refusal State :=
  if 2 ^ w < image.length then .error .imageTooLong
  else if image.all (fun v => decide (Fits w v)) then .ok (startRun w (Memory.ofImage image))
  else .error .imageValueTooWide

/-- The address of the noun (20_memory.md R37). -/
def nounAddress : Nat := 1

/-- The address of the verb (20_memory.md R37). -/
def verbAddress : Nat := 2

/-- A memory with the seeds in place: the noun at address 1, the verb at address 2 (20_memory.md R37). -/
def Memory.seed (m : Memory) (noun verb : Nat) : Memory := (m.set nounAddress noun).set verbAddress verb

/-- Steps (1) to (4) of `seeded_run` (70_reset_and_hazards.md R96): the machine at the release of reset, on a copy
of the template (R95). A template shorter than 3 cells is refused, and so are a template that cannot be loaded and
a seed that does not fit a cell. -/
def seededStart (w : Nat) (template : List Nat) (noun verb : Nat) : Except Refusal State :=
  if template.length < 3 then .error .seedMemoryTooShort
  else
    match loadImage w template with
    | .error r => .error r
    | .ok s =>
      if Fits w noun ∧ Fits w verb then .ok (startRun w (s.mem.seed noun verb))
      else .error .seedTooWide

/-- `seeded_run` (70_reset_and_hazards.md R96): the machine at the end of the run; the result is its
`hostResult`. -/
def seededRun (w : Nat) (template : List Nat) (noun verb : Nat) : Except Refusal State :=
  match seededStart w template noun verb with
  | .ok s => .ok (runToEnd s)
  | .error r => .error r

/-- The seeds of part 1 (70_reset_and_hazards.md R97, R99). -/
def partOneRun (w : Nat) (template : List Nat) : Except Refusal State := seededRun w template 12 2

/-- One side of the search grid: nouns and verbs are 0 to 99 (70_reset_and_hazards.md R99). -/
def gridSide : Nat := 100

/-- `100*noun + verb` (70_reset_and_hazards.md R99). -/
def encodeAnswer (noun verb : Nat) : Nat := 100 * noun + verb

/-- The target of part 2 (70_reset_and_hazards.md R99). -/
def partTwoTarget : Nat := 19690720

/-- How the search ends (70_reset_and_hazards.md R98, R100). -/
inductive SearchResult where
  /-- the answer of the first match in row-major order -/
  | found (answer : Nat)
  /-- the candidate's run ended without a result (FAULTED): the host aborts there -/
  | aborted (noun verb : Nat)
  /-- the candidate's run may not be started -/
  | refused (r : Refusal)
  /-- no pair matches -/
  | exhausted
  deriving DecidableEq, Repr

/-- The search over a list of candidates, in its order (70_reset_and_hazards.md R98, R100, D19). -/
def searchPairs (w : Nat) (template : List Nat) (target : Nat) : List (Nat × Nat) → SearchResult
  | [] => .exhausted
  | p :: rest =>
    match seededRun w template p.1 p.2 with
    | .error r => .refused r
    | .ok t =>
      match hostResult t with
      | none => .aborted p.1 p.2
      | some r =>
        if r = target then .found (encodeAnswer p.1 p.2) else searchPairs w template target rest

/-- The grid in row-major order, the noun outer and the verb inner (70_reset_and_hazards.md R98). -/
def searchGrid : List (Nat × Nat) :=
  (List.range gridSide).flatMap fun noun => (List.range gridSide).map fun verb => (noun, verb)

/-- The Parameter Search `find_pair` (70_reset_and_hazards.md R98). -/
def findPair (w : Nat) (template : List Nat) (target : Nat) : SearchResult :=
  searchPairs w template target searchGrid

end Sys2Proof.Machine
end

