-- ==== Sys2Proof/Safety.lean ====
section
/-! DEFINITION. What claims take as a legal state, a step without overflow, and a good end of a run. -/

namespace Sys2Proof.Machine

/-- The invariant of the machine: legal parameters and memory (00_scope.md R5, R6), `ip` aligned and at most LEN
(10_state.md R16), and the fault registers as R19 and R20 say: a cause exactly when FAULTED, 0 without one, and a
number that `W+1` bits hold. -/
structure State.Inv (s : State) : Prop where
  width_ge : Config.minWidth ≤ s.width
  mem_wf : s.mem.wf s.width
  ip_aligned : s.ip % stride = 0
  ip_le : s.ip ≤ s.mem.len
  cause_iff : s.fcause = .none ↔ s.state ≠ .faulted
  value_zero : s.fcause = .none → s.fvalue = 0
  value_le : s.fvalue ≤ 2 ^ s.width

/-- The ADD or MULT at `ip` has a true result that does not fit a cell (93_implementation_defined.md U2). -/
def State.stepOverflows (s : State) : Bool :=
  match decode (fetchWindow s) with
  | .ok (.add a b _, _) => addOverflows s.width (s.mem.cell a) (s.mem.cell b)
  | .ok (.mult a b _, _) => multOverflows s.width (s.mem.cell a) (s.mem.cell b)
  | .ok (.halt, _) => false
  | .error _ => false

/-- The run from `s` ends well: HALTED, so that its memory is a result (41_control.md R72, 60_exceptions.md
R79). -/
def State.EndsHalted (s : State) : Prop := (runToEnd s).state = .halted

end Sys2Proof.Machine
end

