-- ==== Sys2Proof/Certificates/Slice0/Obligations.lean ====
section
/-! DEFINITION. The statements for the provers. In the docstrings R<n> is a rule of spec/; `[derived]` says that the
statement rests on rules the spec marks as its own inference or states only in part, and `log <n>` names the row of
the assumption log for what is the model's choice. -/

open Sys2Proof Sys2Proof.Machine

/-! ### Reset and loading -/

/-- [derived: 10_state.md section 9; log 1, log 2] The registers after reset. That no image is loaded and that the width is 32
are the model's choices (log 1, log 2). -/
def Obligations.ResetStateValues : Prop :=
  State.reset.ip = 0 ∧ State.reset.state = .running ∧ State.reset.fcause = .none ∧
    State.reset.fvalue = 0 ∧ State.reset.width = 32 ∧ State.reset.mem.len = 0 ∧
    ∀ a, State.reset.mem.read a = none

/-- R91: releasing reset after a load; the machine then steps until its state is terminal. -/
def Obligations.LoadedImageIsResetState : Prop :=
  ∀ (w : Nat) (image : List Nat), image.length ≤ 2 ^ w → (∀ v ∈ image, v < 2 ^ w) →
    ∃ t, loadImage w image = .ok t ∧ t.width = w ∧ t.mem.len = image.length ∧
      (∀ i, t.mem.read i = image[i]?) ∧ t.ip = 0 ∧ t.state = .running ∧ t.fcause = .none ∧
      t.fvalue = 0 ∧ (runToEnd t).state ≠ .running

/-- [derived: 30_encoding.md section 6, 92_eei_decisions.md D17; log 12] An image that does not fit is refused; which of the two names is given
first is the model's choice (log 12). -/
def Obligations.UnloadableImageIsRefused : Prop :=
  ∀ (w : Nat) (image : List Nat),
    (2 ^ w < image.length → loadImage w image = .error .imageTooLong) ∧
    (image.length ≤ 2 ^ w → (∃ v ∈ image, 2 ^ w ≤ v) →
      loadImage w image = .error .imageValueTooWide)

/-! ### Memory -/

/-- R31: a read of an address below LEN is the live cell; any other raises and names the address. A read's answer is
a value, never a new state. -/
def Obligations.MemReadReturnsCellOrRaises : Prop :=
  ∀ (s : State) (addr : Nat),
    (s.mem.len ≤ addr → memRead s addr = .error (.addressOutOfRange addr)) ∧
    (addr < s.mem.len → ∃ v, s.mem.read addr = some v ∧ memRead s addr = .ok v)

/-- R32: a write of an address below LEN changes exactly that cell and is seen by every later read and fetch; any
other raises and writes nothing. Only ADD and MULT write, one cell per instruction: a step that changes a cell runs an
ADD or MULT that names it as its destination. -/
def Obligations.MemWriteChangesOneCell : Prop :=
  (∀ (s : State) (addr v : Nat), v < 2 ^ s.width →
    (s.mem.len ≤ addr → memWrite s addr v = .error (.addressOutOfRange addr)) ∧
    (addr < s.mem.len → ∃ t, memWrite s addr v = .ok t ∧ t.mem.read addr = some v ∧
      memRead t addr = .ok v ∧
      (∀ x, x ≠ addr → t.mem.read x = s.mem.read x) ∧ t.mem.len = s.mem.len ∧ t.width = s.width ∧
      t.ip = s.ip ∧ t.state = s.state ∧ t.fcause = s.fcause ∧ t.fvalue = s.fvalue ∧
      ∀ k, k < 4 → t.ip + k = addr → (fetchWindow t)[k]? = some v)) ∧
  (∀ (s t : State) (x : Nat), step s = .next t → t.mem.read x ≠ s.mem.read x →
    (s.mem.read s.ip = some 1 ∨ s.mem.read s.ip = some 2) ∧ s.mem.read (s.ip + 3) = some x)

/-- [derived: 20_memory.md section 1; the canonical form is the model's, log 4] Two canonical memories that read
alike everywhere are the same data. -/
def Obligations.EqualReadsMeanEqualMemories : Prop :=
  ∀ (w : Nat) (m n : Memory), m.wf w → n.wf w → (∀ a, m.read a = n.read a) → m = n

/-! ### Decoding and encoding -/

/-- [derived: 30_encoding.md sections 1 and 5; the model's `decode` on a window is log 8] The decoder, on every cell
value, applied to the cell at `ip`: the window it is given begins with that cell, and for every value there it selects
the operation `decodeOpcode` gives, or the error that names the value. `decodeOpcode` depends on the value alone; that
`decode`, which also takes the address cells, rejects a window cut off after a 1 or 2 is the model's reading (log 8). -/
def Obligations.DecoderComparesWholeCell : Prop :=
  decodeOpcode 1 = some .add ∧ decodeOpcode 2 = some .mult ∧ decodeOpcode 99 = some .halt ∧
    (∀ v, v ≠ 1 → v ≠ 2 → v ≠ 99 → decodeOpcode v = none) ∧
    ∀ (s : State) (v : Nat), s.mem.read s.ip = some v →
      ∃ rest, fetchWindow s = v :: rest ∧
        (decodeOpcode v = none → decode (v :: rest) = .error (.invalidOpcode v)) ∧
        (decodeOpcode v = some .halt → decode (v :: rest) = .ok (.halt, rest)) ∧
        (decodeOpcode v = some .add ∨ decodeOpcode v = some .mult → rest.length < 3 →
          decode (v :: rest) = .error .windowCutOff) ∧
        ∀ a b c tail, rest = a :: b :: c :: tail →
          (decodeOpcode v = some .add → decode (v :: rest) = .ok (.add a b c, tail)) ∧
          (decodeOpcode v = some .mult → decode (v :: rest) = .ok (.mult a b c, tail))

/-- [derived: 30_encoding.md sections 1, 2 and 4] The decoder reads exactly the encodings, with every value in every
address field, and leaves the cells after the instruction. -/
def Obligations.DecodedCellsAreTheEncoding : Prop :=
  ∀ (cells rest : List Nat) (i : Instr), decode cells = .ok (i, rest) ↔ cells = encode i ++ rest

/-- [derived: 30_encoding.md section 4, 60_exceptions.md section 2; the window check in the decoder is log 8] What is no
instruction: no cell, an opcode outside the three, or a window of ADD or MULT with fewer than three address cells. -/
def Obligations.RejectedCellsAreNamed : Prop :=
  ∀ (cells : List Nat) (v : Nat),
    (decode cells = .error .noCell ↔ cells = []) ∧
    (decode cells = .error (.invalidOpcode v) ↔
      ∃ rest, cells = v :: rest ∧ v ≠ 1 ∧ v ≠ 2 ∧ v ≠ 99) ∧
    (decode cells = .error .windowCutOff ↔
      ∃ op rest, cells = op :: rest ∧ (op = 1 ∨ op = 2) ∧ rest.length < 3)

/-- [derived: 30_encoding.md sections 1, 3 and 7; the packed words rest on log 10] Lists of cells written out from the
encoding tables decode to their instructions. The clauses on `decodeTableWord` are of numbers that pack cells as the
model reads the table's bit numbering, the first cell lowest and a missing cell 0 (log 10): a lone word 1 is there a
whole window `[1, 0, 0, 0]`. -/
def Obligations.WrittenOutCellsDecode : Prop :=
  decode [1, 9, 10, 3] = .ok (.add 9 10 3, []) ∧ decode [2, 3, 11, 0] = .ok (.mult 3 11 0, []) ∧
    decode [99] = .ok (.halt, []) ∧ decode [99, 30, 40, 50] = .ok (.halt, [30, 40, 50]) ∧
    decodeTableWord 32 0x00000001 = some (.add 0 0 0) ∧
    decodeTableWord 32 0x00000002 = some (.mult 0 0 0) ∧
    decodeTableWord 32 0x00000063 = some .halt ∧
    decodeTableWord 128 0x0000000700000006_0000000500000001 = some (.add 5 6 7) ∧
    decodeTableWord 32 0x00000000 = none ∧ decodeTableWord 32 0x00000065 = none

/-- [derived: 30_encoding.md sections 1 to 3; packing the cells into one number is the model's choice, log 10] Decoding the
packed cells of a well-formed instruction gives it back, for every legal width and every operand a cell holds. -/
def Obligations.PackedEncodingRoundTrip : Prop :=
  ∀ (w : Nat) (i : Instr), Config.minWidth ≤ w → i.wellFormed w = true →
    decodeWord w (w * (encode i).length) (encodeWord w i) = some i

/-! ### The ALU -/

/-- [derived: 40_arithmetic.md section 4] The table of exact results. -/
def Obligations.AluResultTable : Prop :=
  ∀ (w x y : Nat), 1 ≤ w → x < 2 ^ w → y < 2 ^ w →
    aluAdd w x y = (if x + y < 2 ^ w then x + y else x + y - 2 ^ w) ∧
    (x * y < 2 ^ w → aluMult w x y = x * y) ∧
    (∃ q, x * y = q * 2 ^ w + aluMult w x y) ∧ aluMult w x y < 2 ^ w ∧
    aluAdd w x 0 = x ∧ aluAdd w x y = aluAdd w y x ∧ aluMult w x 0 = 0 ∧ aluMult w x 1 = x ∧
    aluMult w x y = aluMult w y x ∧ aluAdd w (2 ^ w - 1) 1 = 0 ∧
    aluMult w (2 ^ w - 1) (2 ^ w - 1) = 1 ∧ aluMult w (2 ^ (w - 1)) 2 = 0

/-! ### The instructions -/

/-- [derived: 40_arithmetic.md sections 2 and 5; that exec does not ask for RUNNING is the model's choice, log 7] ADD completes with the sum modulo `2^W` in the destination cell, `ip` 4
larger, and nothing else changed. -/
def Obligations.AddCompletesWithSum : Prop :=
  ∀ (s : State) (a b c va vb : Nat), s.ip + 3 < s.mem.len → s.mem.read a = some va →
    s.mem.read b = some vb → c < s.mem.len →
    ∃ t, exec (.add a b c) s = .next t ∧ t.mem.read c = some ((va + vb) % 2 ^ s.width) ∧
      (∀ x, x ≠ c → t.mem.read x = s.mem.read x) ∧ t.mem.len = s.mem.len ∧ t.width = s.width ∧
      t.ip = s.ip + 4 ∧ t.state = s.state ∧ t.fcause = s.fcause ∧ t.fvalue = s.fvalue

/-- [derived: 40_arithmetic.md sections 3 and 5; that exec does not ask for RUNNING is the model's choice, log 7] MULT completes with the product modulo `2^W` in the destination cell, `ip`
4 larger, and nothing else changed. -/
def Obligations.MultCompletesWithProduct : Prop :=
  ∀ (s : State) (a b c va vb : Nat), s.ip + 3 < s.mem.len → s.mem.read a = some va →
    s.mem.read b = some vb → c < s.mem.len →
    ∃ t, exec (.mult a b c) s = .next t ∧ t.mem.read c = some ((va * vb) % 2 ^ s.width) ∧
      (∀ x, x ≠ c → t.mem.read x = s.mem.read x) ∧ t.mem.len = s.mem.len ∧ t.width = s.width ∧
      t.ip = s.ip + 4 ∧ t.state = s.state ∧ t.fcause = s.fcause ∧ t.fvalue = s.fvalue

/-- [derived: 41_control.md section 3; that exec answers in HALTED and FAULTED too, where the machine has no step, is the
model's choice, log 7] exec of HALT completes in every state and changes the run state only. -/
def Obligations.HaltCompletes : Prop :=
  ∀ s : State, exec .halt s = .next { s with state := .halted }

/-- [derived: 40_arithmetic.md section 1, 60_exceptions.md section 3; that exec does not ask for RUNNING is the model's choice, log 7] ADD and MULT fault, in this order, on a window that is cut off, on the first
source, the second source and the destination; memory and `ip` stay. -/
def Obligations.QuadFaultsInOrder : Prop :=
  ∀ (s : State) (a b c : Nat) (i : Instr), i = .add a b c ∨ i = .mult a b c →
    (s.mem.len ≤ s.ip + 3 → exec i s =
      .next { s with state := .faulted, fcause := .addressOutOfRange, fvalue := s.mem.len }) ∧
    (s.ip + 3 < s.mem.len → s.mem.len ≤ a → exec i s =
      .next { s with state := .faulted, fcause := .addressOutOfRange, fvalue := a }) ∧
    (s.ip + 3 < s.mem.len → a < s.mem.len → s.mem.len ≤ b → exec i s =
      .next { s with state := .faulted, fcause := .addressOutOfRange, fvalue := b }) ∧
    (s.ip + 3 < s.mem.len → a < s.mem.len → b < s.mem.len → s.mem.len ≤ c → exec i s =
      .next { s with state := .faulted, fcause := .addressOutOfRange, fvalue := c })

/-- [derived: 10_state.md section 10; that exec does not ask for RUNNING is the model's choice, log 7] The frame of ADD and MULT: every cell but the destination, and where they
fault every cell; every register but `ip`, or but the three a fault writes; LEN and W. -/
def Obligations.QuadFrame : Prop :=
  ∀ (s t : State) (a b c : Nat) (i : Instr), i = .add a b c ∨ i = .mult a b c →
    exec i s = .next t →
    (∀ x, x ≠ c → t.mem.read x = s.mem.read x) ∧ t.mem.len = s.mem.len ∧ t.width = s.width ∧
    ((t.ip = s.ip + 4 ∧ t.state = s.state ∧ t.fcause = s.fcause ∧ t.fvalue = s.fvalue) ∨
      (t.mem = s.mem ∧ t.ip = s.ip ∧ t.state = .faulted ∧ t.fcause = .addressOutOfRange))

/-! ### One step -/

/-- [derived: 41_control.md section 1] A step runs the instruction its window decodes to; the step adds nothing
around it. -/
def Obligations.StepRunsDecodedInstruction : Prop :=
  ∀ (s : State) (i : Instr) (rest : List Nat), s.state = .running →
    decode (fetchWindow s) = .ok (i, rest) → step s = exec i s

/-- [derived: 41_control.md section 1, 20_memory.md section 6, 30_encoding.md section 1] The window a step decodes is the
live cells at `ip`, `ip+1`, `ip+2`, `ip+3`, as far as they exist; listing them before any opcode is log 8. -/
def Obligations.FetchReadsLiveWindow : Prop :=
  ∀ (s : State) (k : Nat),
    (fetchWindow s)[k]? = if k < 4 then s.mem.read (s.ip + k) else none

/-- R57: a step at an ADD or MULT opcode is `QuadExecute` with the operation's ALU function. -/
def Obligations.QuadStepFollowsProcedure : Prop :=
  ∀ (s : State) (op : Nat) (f : Nat → Nat → Nat), s.state = .running → s.mem.read s.ip = some op →
    (op = 1 ∧ f = fun x y => (x + y) % 2 ^ s.width) ∨
      (op = 2 ∧ f = fun x y => (x * y) % 2 ^ s.width) →
    (s.mem.len ≤ s.ip + 3 → step s =
      .next { s with state := .faulted, fcause := .addressOutOfRange, fvalue := s.mem.len }) ∧
    ∀ a b c, s.mem.read (s.ip + 1) = some a → s.mem.read (s.ip + 2) = some b →
      s.mem.read (s.ip + 3) = some c →
      (s.mem.read a = none → step s =
        .next { s with state := .faulted, fcause := .addressOutOfRange, fvalue := a }) ∧
      ∀ va, s.mem.read a = some va →
        (s.mem.read b = none → step s =
          .next { s with state := .faulted, fcause := .addressOutOfRange, fvalue := b }) ∧
        ∀ vb, s.mem.read b = some vb →
          (s.mem.len ≤ c → step s =
            .next { s with state := .faulted, fcause := .addressOutOfRange, fvalue := c }) ∧
          (c < s.mem.len → ∃ m, step s = .next { s with mem := m, ip := s.ip + 4 } ∧
            m.len = s.mem.len ∧ m.read c = some (f va vb) ∧ ∀ x, x ≠ c → m.read x = s.mem.read x)

/-- R62: the document's single-step property, the right-hand side and the three addresses read before the step. -/
def Obligations.SingleStepPropertyInPreState : Prop :=
  ∀ (s t : State) (a b c va vb : Nat), step s = .next t → t.state = .running →
    s.mem.read (s.ip + 1) = some a → s.mem.read (s.ip + 2) = some b →
    s.mem.read (s.ip + 3) = some c → s.mem.read a = some va → s.mem.read b = some vb →
    (s.mem.read s.ip = some 1 → t.mem.read c = some ((va + vb) % 2 ^ s.width) ∧
      ∀ x, x ≠ c → t.mem.read x = s.mem.read x) ∧
    (s.mem.read s.ip = some 2 → t.mem.read c = some ((va * vb) % 2 ^ s.width) ∧
      ∀ x, x ≠ c → t.mem.read x = s.mem.read x)

/-- R67: a step at the opcode 99 changes the run state only, whatever stands after it and whether it exists; the
fault registers keep NONE and 0, which they hold in every state of the invariant. -/
def Obligations.HaltStepChangesRunStateOnly : Prop :=
  ∀ s : State, s.state = .running → s.mem.read s.ip = some 99 →
    step s = .next { s with state := .halted } ∧ (s.Inv → s.fcause = .none ∧ s.fvalue = 0)

/-- R74: every opcode outside 1, 2 and 99 raises InvalidOpcode, cause code 1, with the opcode's value; `ip` and memory
stay; and no instruction raises it. -/
def Obligations.InvalidOpcodeFaults : Prop :=
  FaultCause.code .invalidOpcode = 1 ∧
  (∀ (s : State) (v : Nat), s.state = .running → s.mem.read s.ip = some v → v ≠ 1 → v ≠ 2 → v ≠ 99 →
    step s = .next { s with state := .faulted, fcause := .invalidOpcode, fvalue := v }) ∧
  ∀ (s t : State) (i : Instr), exec i s = .next t → s.fcause ≠ .invalidOpcode →
    t.fcause ≠ .invalidOpcode

/-- R75 and R77: the sites of AddressOutOfRange, cause code 2, with the address each reports, and the priority of all
faults: fetch address, invalid opcode, window, source 1, source 2, destination. Where none of the six holds, the step
does not fault. At the fetch, a state of the invariant reports LEN, and LEN is a multiple of 4. -/
def Obligations.FirstFaultIsReported : Prop :=
  FaultCause.code .addressOutOfRange = 2 ∧
  ∀ s : State, s.state = .running →
    (s.mem.len ≤ s.ip → step s =
      .next { s with state := .faulted, fcause := .addressOutOfRange, fvalue := s.ip }) ∧
    (s.Inv → s.mem.len ≤ s.ip → s.ip = s.mem.len ∧ s.mem.len % 4 = 0) ∧
    ∀ op, s.mem.read s.ip = some op →
      (op ≠ 1 → op ≠ 2 → op ≠ 99 → step s =
        .next { s with state := .faulted, fcause := .invalidOpcode, fvalue := op }) ∧
      (op = 99 → ∃ t, step s = .next t ∧ t.state ≠ .faulted) ∧
      (op = 1 ∨ op = 2 →
        (s.mem.len ≤ s.ip + 3 → step s =
          .next { s with state := .faulted, fcause := .addressOutOfRange, fvalue := s.mem.len }) ∧
        ∀ a b c, s.mem.read (s.ip + 1) = some a → s.mem.read (s.ip + 2) = some b →
          s.mem.read (s.ip + 3) = some c →
          (s.mem.len ≤ a → step s =
            .next { s with state := .faulted, fcause := .addressOutOfRange, fvalue := a }) ∧
          (a < s.mem.len → s.mem.len ≤ b → step s =
            .next { s with state := .faulted, fcause := .addressOutOfRange, fvalue := b }) ∧
          (a < s.mem.len → b < s.mem.len → s.mem.len ≤ c → step s =
            .next { s with state := .faulted, fcause := .addressOutOfRange, fvalue := c }) ∧
          (a < s.mem.len → b < s.mem.len → c < s.mem.len →
            ∃ t, step s = .next t ∧ t.state = .running))

/-- R78: a fault writes the run state and the two fault registers and nothing else. -/
def Obligations.FaultChangesNothingElse : Prop :=
  ∀ s t : State, step s = .next t → t.state = .faulted →
    ∃ (cause : FaultCause) (info : Nat), (cause.code = 1 ∨ cause.code = 2) ∧
      t = { s with state := .faulted, fcause := cause, fvalue := info }

/-- R79: FAULTED is sticky; no step exists and any number of steps leaves the whole state. Nothing but a reset clears
a fault: no step leads out of FAULTED, and starting a run does. -/
def Obligations.FaultedIsSticky : Prop :=
  ∀ s : State, s.state = .faulted →
    (∀ t, step s ≠ .next t) ∧ (∀ n, runSteps n s = s) ∧ hostResult s = none ∧
    ∀ w m, (startRun w m).state = .running ∧ (startRun w m).fcause = .none

/-- [derived: 41_control.md section 1, 10_state.md section 5; how a missing step is answered is
the model's choice, log 5] The machine steps
if and only if it is RUNNING, and a step is never refused. -/
def Obligations.StepExistsExactlyWhenRunning : Prop :=
  ∀ s : State, ((∃ t, step s = .next t) ↔ s.state = .running) ∧ (∀ r, step s ≠ .refused r) ∧
    (s.state = .halted → step s = .fault .noStepWhenHalted) ∧
    (s.state = .faulted → step s = .fault .noStepWhenFaulted)

/-- R18: the transition table of the run state, from every state, with the encodings of the three values. -/
def Obligations.RunStateTransitions : Prop :=
  RunState.code .running = 0 ∧ RunState.code .halted = 1 ∧ RunState.code .faulted = 2 ∧
  (∀ w m, (startRun w m).state = .running) ∧ State.reset.state = .running ∧
  (∀ s t : State, s.state = .halted ∨ s.state = .faulted → step s ≠ .next t) ∧
  (∀ s : State, s.state = .running → ∃ t, step s = .next t) ∧
  ∀ s t : State, step s = .next t →
    (t.state = .halted ↔ s.mem.read s.ip = some 99) ∧
    (t.state = .running ↔ (s.mem.read s.ip = some 1 ∨ s.mem.read s.ip = some 2) ∧
      ∃ a b c, s.mem.read (s.ip + 1) = some a ∧ s.mem.read (s.ip + 2) = some b ∧
        s.mem.read (s.ip + 3) = some c ∧ a < s.mem.len ∧ b < s.mem.len ∧ c < s.mem.len) ∧
    (t.state = .faulted ↔ (∃ v, s.mem.read s.ip = some v ∧ v ≠ 1 ∧ v ≠ 2 ∧ v ≠ 99) ∨
      s.mem.len ≤ s.ip ∨
      ((s.mem.read s.ip = some 1 ∨ s.mem.read s.ip = some 2) ∧ (s.mem.len ≤ s.ip + 3 ∨
        ∃ k x, 1 ≤ k ∧ k ≤ 3 ∧ s.mem.read (s.ip + k) = some x ∧ s.mem.len ≤ x)))

/-- R17: where `ip` stands in a terminal state: at the 99 after HALT, at the offending opcode after a fault, and at the
out-of-range address, which is then also in `fvalue`, after a fetch beyond the end. -/
def Obligations.TerminalIpIsPosition : Prop :=
  ∀ s t : State, step s = .next t →
    (t.state = .halted → t.ip = s.ip ∧ t.mem.read t.ip = some 99) ∧
    (t.state = .faulted → t.ip = s.ip ∧ (t.fcause = .invalidOpcode → t.mem.read t.ip = some t.fvalue) ∧
      (t.mem.read t.ip = none → t.fcause = .addressOutOfRange ∧ t.fvalue = t.ip))

/-- [derived: 41_control.md section 2, 10_state.md section 4] `ip` changes by exactly 4 where an ADD or MULT completes, and only there. -/
def Obligations.IpAdvancesByFourOnCompletion : Prop :=
  ∀ s t : State, step s = .next t →
    (t.state = .running → t.ip = s.ip + 4 ∧ t.ip ≤ t.mem.len) ∧ (t.state ≠ .running → t.ip = s.ip)

/-- [derived: 10_state.md sections 3 and 8] No step changes the parameters W and LEN. -/
def Obligations.ParametersNeverChange : Prop :=
  ∀ s t : State, step s = .next t → t.width = s.width ∧ t.mem.len = s.mem.len

/-- [derived: 60_exceptions.md section 2] Which step can raise which fault, and the number it records. -/
def Obligations.FaultNeedsItsCause : Prop :=
  ∀ s t : State, step s = .next t → t.state = .faulted →
    (t.fcause = .invalidOpcode ∧ s.mem.read s.ip = some t.fvalue ∧
      t.fvalue ≠ 1 ∧ t.fvalue ≠ 2 ∧ t.fvalue ≠ 99) ∨
    (t.fcause = .addressOutOfRange ∧ s.mem.len ≤ t.fvalue ∧
      (s.mem.read s.ip = none ∨ s.mem.read s.ip = some 1 ∨ s.mem.read s.ip = some 2))

/-- R19: the cause register. Its values have codes 0, 1 and 2; reset writes NONE, and a step writes it only where it
takes the machine from RUNNING to FAULTED; in every state of the invariant it is NONE exactly in RUNNING and HALTED. -/
def Obligations.CauseRegisterRule : Prop :=
  FaultCause.code .none = 0 ∧ FaultCause.code .invalidOpcode = 1 ∧
    FaultCause.code .addressOutOfRange = 2 ∧ (∀ c : FaultCause, c.code ≠ 3) ∧
    (∀ w m, (startRun w m).fcause = .none) ∧
    (∀ s t : State, step s = .next t → t.fcause ≠ s.fcause → s.state = .running ∧ t.state = .faulted) ∧
    ∀ s : State, s.Inv → (s.fcause = .none ↔ s.state = .running ∨ s.state = .halted)

/-- R20: the number a fault records: the opcode cell's value, or the address that does not exist, which is `ip`, LEN or
one of the three address cells; `W+1` bits hold it; and it is 0 after reset and without a cause. -/
def Obligations.ValueRegisterRule : Prop :=
  (∀ s t : State, step s = .next t → t.state = .faulted →
    (t.fcause = .invalidOpcode → s.mem.read s.ip = some t.fvalue) ∧
    (t.fcause = .addressOutOfRange → s.mem.len ≤ t.fvalue ∧ (t.fvalue = s.ip ∨ t.fvalue = s.mem.len ∨
      ∃ k, 1 ≤ k ∧ k ≤ 3 ∧ s.mem.read (s.ip + k) = some t.fvalue))) ∧
  (∀ w m, (startRun w m).fvalue = 0) ∧
  ∀ s : State, s.Inv → s.fvalue < 2 ^ (s.width + 1) ∧ (s.fcause = .none → s.fvalue = 0)

/-- [derived: 20_memory.md section 7, 41_control.md section 2] An ADD or MULT whose destination is the next opcode cell
decides the next step by its result, read there at once: 99 halts, 1 and 2 run ADD and MULT on the address cells that
follow, or fault where that window is cut off, and every other value is an invalid opcode. -/
def Obligations.StoreAheadDecidesNextStep : Prop :=
  ∀ (s : State) (op a b va vb : Nat) (f : Nat → Nat → Nat), s.state = .running →
    s.mem.read s.ip = some op → (op = 1 ∧ f = fun x y => (x + y) % 2 ^ s.width) ∨
      (op = 2 ∧ f = fun x y => (x * y) % 2 ^ s.width) →
    s.mem.read (s.ip + 1) = some a → s.mem.read (s.ip + 2) = some b →
    s.mem.read (s.ip + 3) = some (s.ip + 4) → s.mem.read a = some va → s.mem.read b = some vb →
    s.ip + 4 < s.mem.len →
    ∃ t, step s = .next t ∧ t.ip = s.ip + 4 ∧ t.mem.read t.ip = some (f va vb) ∧
      (f va vb = 99 → step t = .next { t with state := .halted }) ∧
      (f va vb ≠ 1 → f va vb ≠ 2 → f va vb ≠ 99 → step t =
        .next { t with state := .faulted, fcause := .invalidOpcode, fvalue := f va vb }) ∧
      (f va vb = 1 ∨ f va vb = 2 → s.mem.len ≤ s.ip + 7 → step t =
        .next { t with state := .faulted, fcause := .addressOutOfRange, fvalue := s.mem.len }) ∧
      ∀ a' b' c', s.mem.read (s.ip + 5) = some a' → s.mem.read (s.ip + 6) = some b' →
        s.mem.read (s.ip + 7) = some c' →
        (f va vb = 1 → step t = exec (.add a' b' c') t) ∧
        (f va vb = 2 → step t = exec (.mult a' b' c') t)

/-- [derived: 40_arithmetic.md section 6] The aliasing table: equal operand addresses, a destination that is a source,
operands and destinations in the instruction's own cells, in the next instruction's cells and behind `ip`. -/
def Obligations.AliasingCases : Prop :=
  ∀ (s : State) (op a b c va vb : Nat) (f : Nat → Nat → Nat), s.state = .running →
    s.mem.read s.ip = some op → (op = 1 ∧ f = fun x y => (x + y) % 2 ^ s.width) ∨
      (op = 2 ∧ f = fun x y => (x * y) % 2 ^ s.width) →
    s.mem.read (s.ip + 1) = some a → s.mem.read (s.ip + 2) = some b →
    s.mem.read (s.ip + 3) = some c → s.mem.read a = some va → s.mem.read b = some vb →
    c < s.mem.len →
    ∃ t, step s = .next t ∧
      (a = b → t.mem.read c = some (f va va)) ∧ (c = a → t.mem.read a = some (f va vb)) ∧
      (c = b → t.mem.read b = some (f va vb)) ∧ (a = s.ip → t.mem.read c = some (f op vb)) ∧
      (b = s.ip → t.mem.read c = some (f va op)) ∧ (a = s.ip + 1 → t.mem.read c = some (f a vb)) ∧
      (b = s.ip + 2 → t.mem.read c = some (f va b)) ∧ (a = s.ip + 3 → t.mem.read c = some (f c vb)) ∧
      (s.ip ≤ c → c ≤ s.ip + 3 → t.mem.read c = some (f va vb) ∧
        fetchWindow t = fetchWindow { s with ip := s.ip + 4 }) ∧
      (∀ k, k < 4 → c = s.ip + 4 + k → (fetchWindow t)[k]? = some (f va vb)) ∧
      (c < s.ip → fetchWindow t = fetchWindow { s with ip := s.ip + 4 })

/-- [derived: 00_scope.md section 8, 10_state.md section 2] A program cannot see the fault registers: a step from two
RUNNING states that differ in them only does the same to memory, `ip` and the run state. -/
def Obligations.FaultRegistersAreInvisible : Prop :=
  ∀ (s : State) (cause : FaultCause) (info : Nat), s.state = .running →
    ∃ t u, step s = .next t ∧ step { s with fcause := cause, fvalue := info } = .next u ∧
      t.mem = u.mem ∧ t.ip = u.ip ∧ t.state = u.state

/-- [derived: 92_eei_decisions.md D1, 93_implementation_defined.md U2] A step that does not overflow is the same step
at every larger width. -/
def Obligations.WiderCellsSameStepWithoutOverflow : Prop :=
  ∀ (s t : State) (w : Nat), s.width ≤ w → s.stepOverflows = false → step s = .next t →
    step { s with width := w } = .next { t with width := w }

/-! ### Invariants -/

/-- [derived: 10_state.md sections 4, 6 and 9] The state after reset meets the invariant. -/
def Obligations.ResetHasInvariant : Prop := State.reset.Inv

/-- [derived: 10_state.md section 9, 70_reset_and_hazards.md section 1] A loaded image meets the invariant, with seeds or without. -/
def Obligations.LoadedImageHasInvariant : Prop :=
  ∀ (w : Nat) (image : List Nat) (noun verb : Nat) (t : State), Config.minWidth ≤ w →
    loadImage w image = .ok t ∨ seededStart w image noun verb = .ok t → t.Inv

/-- [derived: 10_state.md sections 3, 4 and 6] From every state of the invariant a step leads to one: legal memory in
canonical form, `ip` a multiple of 4 and at most LEN, and the fault registers telling FAULTED from the rest. -/
def Obligations.StepKeepsInvariant : Prop :=
  ∀ s t : State, s.Inv → step s = .next t → t.Inv

/-- [derived: 10_state.md sections 4 and 6] Registers of `W+1` bits hold `ip`, every address a step forms from it, and
`fvalue`. -/
def Obligations.RegisterWidthsSuffice : Prop :=
  ∀ s : State, s.Inv → s.ip + 3 < 2 ^ (s.width + 1) ∧ s.fvalue < 2 ^ (s.width + 1) ∧
    s.ip ≤ 4 * (s.mem.len / 4)

/-! ### Runs -/

/-- [derived: 70_reset_and_hazards.md section 6, 41_control.md section 7] Every run ends: from a RUNNING state the first state that is not
RUNNING is reached after at least one and at most `floor((LEN - ip)/4) + 1` steps, and it is the run's end. -/
def Obligations.RunEndsWithinBound : Prop :=
  ∀ s : State, s.state = .running →
    ∃ n, 1 ≤ n ∧ n ≤ (s.mem.len - s.ip) / 4 + 1 ∧ (runSteps n s).state ≠ .running ∧
      (∀ k, k < n → (runSteps k s).state = .running) ∧ runToEnd s = runSteps n s

/-- [derived: 60_exceptions.md section 9, 70_reset_and_hazards.md section 6] The `k`-th instruction of a run runs at
`4k` from the start, and the run's last `ip` counts its completed instructions. -/
def Obligations.IpCountsCompletedInstructions : Prop :=
  ∀ (s : State) (n : Nat), s.state = .running →
    ((runSteps n s).state = .running → (runSteps n s).ip = s.ip + 4 * n) ∧
    ((runSteps n s).state = .running → (runSteps (n + 1) s).state ≠ .running →
      (runToEnd s).ip = s.ip + 4 * n)

/-- [derived: 70_reset_and_hazards.md section 6] A run changes at most `floor(LEN/4)` cells. -/
def Obligations.RunChangesFewCells : Prop :=
  ∀ s : State, s.state = .running →
    ((List.range s.mem.len).filter fun a => (runToEnd s).mem.read a ≠ s.mem.read a).length ≤
      s.mem.len / 4

/-- [derived: 41_control.md section 7, 60_exceptions.md section 6] The result is `mem[0]` of a HALTED machine, and no other machine has one. -/
def Obligations.ResultOnlyFromHalted : Prop :=
  ∀ s : State, (s.state = .halted → hostResult s = s.mem.read 0) ∧
    (s.state ≠ .halted → hostResult s = none)

/-- [derived: 41_control.md sections 3 and 7, 70_reset_and_hazards.md section 2] A run from a RUNNING state that ends
HALTED ends at a 99 and has a result. -/
def Obligations.GoodEndHasResult : Prop :=
  ∀ s : State, s.state = .running → s.EndsHalted →
    (runToEnd s).mem.read (runToEnd s).ip = some 99 ∧
      ∃ r, (runToEnd s).mem.read 0 = some r ∧ hostResult (runToEnd s) = some r

/-- [derived: 60_exceptions.md section 6, 10_state.md section 4] What the host reads after a step: nothing while
RUNNING, how the run ended, and after a fault the offending number with the position. -/
def Obligations.ReportNamesCauseAndPosition : Prop :=
  ∀ s t : State, step s = .next t →
    (t.state = .running → report t = none) ∧ (t.state = .halted → report t = some .halted) ∧
    (t.state = .faulted →
      (∃ v, report t = some (.invalidOpcode v s.ip) ∧ s.mem.read s.ip = some v) ∨
      ∃ x, report t = some (.addressOutOfRange x s.ip) ∧ s.mem.len ≤ x)

/-! ### The host's procedures -/

/-- [derived: 70_reset_and_hazards.md section 3, 30_encoding.md section 6; the names and the order of the refusals are
the model's choice, log 12] The seeded run. A template shorter than 3 cells is refused, then a template that cannot be
loaded, with the load's own refusal, then a seed that does not fit a cell. Otherwise the run starts from a copy of the
template with the noun at address 1 and the verb at address 2, and at its end a HALTED machine gives `mem[0]` and a
FAULTED one no result. -/
def Obligations.SeededRunProtocol : Prop :=
  ∀ (w : Nat) (template : List Nat) (noun verb : Nat),
    (template.length < 3 → seededStart w template noun verb = .error .seedMemoryTooShort ∧
      seededRun w template noun verb = .error .seedMemoryTooShort) ∧
    (3 ≤ template.length → ∀ r, loadImage w template = .error r →
      seededStart w template noun verb = .error r ∧ seededRun w template noun verb = .error r) ∧
    (3 ≤ template.length → template.length ≤ 2 ^ w → (∀ v ∈ template, v < 2 ^ w) →
      2 ^ w ≤ noun ∨ 2 ^ w ≤ verb → seededStart w template noun verb = .error .seedTooWide ∧
        seededRun w template noun verb = .error .seedTooWide) ∧
    (3 ≤ template.length → template.length ≤ 2 ^ w → (∀ v ∈ template, v < 2 ^ w) → noun < 2 ^ w →
      verb < 2 ^ w →
      ∃ s t, seededStart w template noun verb = .ok s ∧ s.width = w ∧
        s.mem.len = template.length ∧ s.mem.read 1 = some noun ∧ s.mem.read 2 = some verb ∧
        (∀ i, i ≠ 1 → i ≠ 2 → s.mem.read i = template[i]?) ∧ s.ip = 0 ∧ s.state = .running ∧
        s.fcause = .none ∧ s.fvalue = 0 ∧ seededRun w template noun verb = .ok t ∧
        t = runToEnd s ∧ t.state ≠ .running ∧
        (t.state = .halted → ∃ r, t.mem.read 0 = some r ∧ hostResult t = some r) ∧
        (t.state = .faulted → hostResult t = none))

/-- R98: the search returns `100*noun + verb` of the first pair in row-major order whose run gives the target; every
pair before it ran to a result that is not the target. -/
def Obligations.SearchReturnsFirstMatch : Prop :=
  ∀ (w : Nat) (template : List Nat) (target n : Nat),
    findPair w template target = .found n ↔
      ∃ noun verb, noun < 100 ∧ verb < 100 ∧ n = 100 * noun + verb ∧
        (∃ t, seededRun w template noun verb = .ok t ∧ hostResult t = some target) ∧
        ∀ noun' verb', noun' < 100 → verb' < 100 →
          noun' < noun ∨ (noun' = noun ∧ verb' < verb) →
          ∃ t r, seededRun w template noun' verb' = .ok t ∧ hostResult t = some r ∧ r ≠ target

/-- [derived: 70_reset_and_hazards.md section 3, 92_eei_decisions.md D19; that a candidate which may
not be started ends the search, so that it is then not exhausted, is the model's choice, log 13] The search is exhausted when every pair ran to a result that is not
the target, and aborts at the first pair whose run ends FAULTED where every pair before it ran to a result that is not
the target. -/
def Obligations.SearchExhaustionAndAbort : Prop :=
  ∀ (w : Nat) (template : List Nat) (target noun verb : Nat),
    (findPair w template target = .exhausted ↔ ∀ n v, n < 100 → v < 100 →
      ∃ t r, seededRun w template n v = .ok t ∧ hostResult t = some r ∧ r ≠ target) ∧
    (findPair w template target = .aborted noun verb ↔
      noun < 100 ∧ verb < 100 ∧ (∃ t, seededRun w template noun verb = .ok t ∧ t.state = .faulted) ∧
      ∀ n v, n < 100 → v < 100 → n < noun ∨ (n = noun ∧ v < verb) →
        ∃ t r, seededRun w template n v = .ok t ∧ hostResult t = some r ∧ r ≠ target)

/-- [derived: 70_reset_and_hazards.md section 1; that a load stands for the word is the model's choice, log 9] After one
instruction is loaded where the next step fetches, that step runs exactly it. -/
def Obligations.LoadedWordRunsNext : Prop :=
  ∀ (s : State) (nbits x : Nat) (i : Instr), decodeWord s.width nbits x = some i →
    step (s.withFetchWord nbits x) = exec i (s.withFetchWord nbits x)
end

