-- ==== Sys2Proof/Laws/Decode.lean ====
section
/-! SUPPORT. What the decoder can answer. -/

namespace Sys2Proof

theorem decodeOpcode_eq_none {v : Nat} : decodeOpcode v = none ↔ v ≠ 1 ∧ v ≠ 2 ∧ v ≠ 99 := by
  unfold decodeOpcode opcodeAdd opcodeMult opcodeHalt
  split_ifs <;> simp_all

theorem decodeOpcode_eq_add {v : Nat} : decodeOpcode v = some .add ↔ v = 1 := by
  unfold decodeOpcode opcodeAdd opcodeMult opcodeHalt
  split_ifs <;> simp_all

theorem decodeOpcode_eq_mult {v : Nat} : decodeOpcode v = some .mult ↔ v = 2 := by
  unfold decodeOpcode opcodeAdd opcodeMult opcodeHalt
  split_ifs <;> simp_all

theorem decodeOpcode_eq_halt {v : Nat} : decodeOpcode v = some .halt ↔ v = 99 := by
  unfold decodeOpcode opcodeAdd opcodeMult opcodeHalt
  split_ifs <;> simp_all

/-- The cell packed first is read first. -/
theorem cellsOfWord_succ (w n x : Nat) :
    cellsOfWord w (n + 1) x = x % 2 ^ w :: cellsOfWord w n (x / 2 ^ w) := rfl

theorem cellsOfWord_length (w n x : Nat) : (cellsOfWord w n x).length = n := by
  induction n generalizing x with
  | zero => rfl
  | succ n ih => simp [cellsOfWord, ih]

theorem cellsOfWord_fit {w n x : Nat} {v : Nat} (hv : v ∈ cellsOfWord w n x) : Fits w v := by
  induction n generalizing x with
  | zero => simp [cellsOfWord] at hv
  | succ n ih =>
    rcases List.mem_cons.1 hv with rfl | hv'
    · exact Nat.mod_lt _ (Nat.two_pow_pos w)
    · exact ih hv'

end Sys2Proof
end

