-- ==== Sys2Proof/Laws/Memory.lean ====
section
/-! SUPPORT. The laws of the memory operations: read after write, LEN, and the canonical form every operation
keeps. -/

namespace Sys2Proof.Machine

/-! ### Lists of cells -/

theorem lookup_eraseCell_same (a : Nat) (cells : List (Nat × Nat)) :
    lookupCell a (eraseCell a cells) = unlistedCell := by
  induction cells with
  | nil => rfl
  | cons p rest ih =>
    by_cases h : p.1 = a
    · simpa [eraseCell, h] using ih
    · simpa [eraseCell, lookupCell, h] using ih

theorem lookup_eraseCell_other {a b : Nat} (hab : b ≠ a) (cells : List (Nat × Nat)) :
    lookupCell b (eraseCell a cells) = lookupCell b cells := by
  induction cells with
  | nil => rfl
  | cons p rest ih =>
    by_cases h : p.1 = a
    · have hb : p.1 ≠ b := fun hpb => hab (hpb.symm.trans h)
      simpa [eraseCell, lookupCell, h, hb, Ne.symm hab] using ih
    · by_cases hb : p.1 = b
      · simp [eraseCell, lookupCell, hb, hab]
      · simpa [eraseCell, lookupCell, h, hb] using ih

theorem mem_eraseCell {a : Nat} {cells : List (Nat × Nat)} {p : Nat × Nat}
    (hp : p ∈ eraseCell a cells) : p ∈ cells ∧ p.1 ≠ a := by
  induction cells with
  | nil => simp [eraseCell] at hp
  | cons q rest ih =>
    by_cases h : q.1 = a
    · have := ih (by simpa [eraseCell, h] using hp)
      exact ⟨List.mem_cons_of_mem _ this.1, this.2⟩
    · rcases List.mem_cons.1 (by simpa [eraseCell, h] using hp) with rfl | hp'
      · exact ⟨List.mem_cons_self, h⟩
      · exact ⟨List.mem_cons_of_mem _ (ih hp').1, (ih hp').2⟩

theorem eraseCell_rising {a : Nat} {cells : List (Nat × Nat)}
    (h : cells.Pairwise (fun p q => p.1 < q.1)) :
    (eraseCell a cells).Pairwise (fun p q => p.1 < q.1) := by
  induction cells with
  | nil => exact h
  | cons p rest ih =>
    obtain ⟨hp, hrest⟩ := List.pairwise_cons.1 h
    by_cases hpa : p.1 = a
    · simpa [eraseCell, hpa] using ih hrest
    · have hall : ∀ q ∈ eraseCell a rest, p.1 < q.1 := fun q hq => hp q (mem_eraseCell hq).1
      rw [eraseCell, if_neg hpa]
      exact List.pairwise_cons.2 ⟨hall, ih hrest⟩

theorem lookup_insertCell_same (a : Nat) (v : Nat) {cells : List (Nat × Nat)}
    (h : ∀ p ∈ cells, p.1 ≠ a) : lookupCell a (insertCell a v cells) = v := by
  induction cells with
  | nil => simp [insertCell, lookupCell]
  | cons p rest ih =>
    by_cases hp : a < p.1
    · simp [insertCell, lookupCell, hp]
    · have hne : p.1 ≠ a := h p List.mem_cons_self
      simpa [insertCell, lookupCell, hp, hne] using ih fun q hq => h q (List.mem_cons_of_mem _ hq)

theorem lookup_insertCell_other {a b : Nat} (hab : b ≠ a) (v : Nat)
    (cells : List (Nat × Nat)) : lookupCell b (insertCell a v cells) = lookupCell b cells := by
  induction cells with
  | nil => simp [insertCell, lookupCell, Ne.symm hab]
  | cons p rest ih =>
    by_cases hp : a < p.1
    · simp [insertCell, lookupCell, hp, Ne.symm hab]
    · rw [insertCell, if_neg hp, lookupCell, lookupCell, ih]

theorem mem_insertCell {a : Nat} {v : Nat} {cells : List (Nat × Nat)}
    {p : Nat × Nat} (hp : p ∈ insertCell a v cells) : p = (a, v) ∨ p ∈ cells := by
  induction cells with
  | nil => exact .inl (by simpa [insertCell] using hp)
  | cons q rest ih =>
    by_cases hq : a < q.1
    · simpa [insertCell, hq] using hp
    · rcases List.mem_cons.1 (by simpa [insertCell, hq] using hp) with rfl | hp'
      · exact .inr List.mem_cons_self
      · exact (ih hp').imp_right (List.mem_cons_of_mem _)

theorem insertCell_rising {a : Nat} {v : Nat} {cells : List (Nat × Nat)}
    (hne : ∀ p ∈ cells, p.1 ≠ a) (h : cells.Pairwise (fun p q => p.1 < q.1)) :
    (insertCell a v cells).Pairwise (fun p q => p.1 < q.1) := by
  induction cells with
  | nil => simp [insertCell]
  | cons p rest ih =>
    obtain ⟨hp, hrest⟩ := List.pairwise_cons.1 h
    by_cases hpa : a < p.1
    · have hall : ∀ q ∈ p :: rest, a < q.1 := by
        rintro q (_ | ⟨_, hq⟩)
        · exact hpa
        · exact hpa.trans (hp q hq)
      rw [insertCell, if_pos hpa]
      exact List.pairwise_cons.2 ⟨hall, h⟩
    · have hlt : p.1 < a := by
        have := hne p List.mem_cons_self
        omega
      have hall : ∀ q ∈ insertCell a v rest, p.1 < q.1 := by
        intro q hq
        rcases mem_insertCell hq with rfl | hq'
        · exact hlt
        · exact hp q hq'
      rw [insertCell, if_neg hpa]
      exact List.pairwise_cons.2 ⟨hall, ih (fun q hq => hne q (List.mem_cons_of_mem _ hq)) hrest⟩

/-! ### Setting a cell -/

@[simp] theorem set_len (m : Memory) (a : Nat) (v : Nat) : (m.set a v).len = m.len := rfl

theorem cell_set_same (m : Memory) (a : Nat) (v : Nat) : (m.set a v).cell a = v := by
  by_cases hv : v = unlistedCell
  · simpa [Memory.cell, Memory.set, putCell, hv] using lookup_eraseCell_same a m.cells
  · simpa [Memory.cell, Memory.set, putCell, hv] using
      lookup_insertCell_same a v fun p hp => (mem_eraseCell hp).2

theorem cell_set_other {a b : Nat} (hab : b ≠ a) (m : Memory) (v : Nat) :
    (m.set a v).cell b = m.cell b := by
  by_cases hv : v = unlistedCell
  · simpa [Memory.cell, Memory.set, putCell, hv] using lookup_eraseCell_other hab m.cells
  · simpa [Memory.cell, Memory.set, putCell, hv] using
      (lookup_insertCell_other hab v _).trans (lookup_eraseCell_other hab m.cells)

theorem read_set_same {m : Memory} {a : Nat} (ha : a < m.len) (v : Nat) :
    (m.set a v).read a = some v := by
  simp [Memory.read, ha, cell_set_same]

theorem read_set_other {a b : Nat} (hab : b ≠ a) (m : Memory) (v : Nat) :
    (m.set a v).read b = m.read b := by
  simp [Memory.read, cell_set_other hab]

theorem read_eq_some {m : Memory} {a : Nat} {v : Nat} :
    m.read a = some v ↔ a < m.len ∧ m.cell a = v := by
  simp [Memory.read]

theorem read_eq_none {m : Memory} {a : Nat} : m.read a = none ↔ m.len ≤ a := by
  simp [Memory.read]

/-- A write of a value that fits, to an address that exists, keeps the canonical form. -/
theorem set_wf {w : Nat} {m : Memory} {a : Nat} {v : Nat} (hm : m.wf w) (ha : a < m.len)
    (hv : Fits w v) : (m.set a v).wf w := by
  obtain ⟨hlen, hrise, hall⟩ := hm
  have hkeep : ∀ p ∈ eraseCell a m.cells, p.1 < m.len ∧ p.2 ≠ unlistedCell ∧ Fits w p.2 :=
    fun p hp => hall p (mem_eraseCell hp).1
  by_cases h0 : v = unlistedCell
  · exact ⟨hlen, by simpa [Memory.set, putCell, h0] using eraseCell_rising hrise,
      by simpa [Memory.set, putCell, h0] using hkeep⟩
  · refine ⟨hlen, ?_, ?_⟩
    · simpa [Memory.set, putCell, h0] using
        insertCell_rising (fun p hp => (mem_eraseCell hp).2) (eraseCell_rising hrise)
    · intro p hp
      rcases mem_insertCell (by simpa [Memory.set, putCell, h0] using hp) with rfl | hp'
      · exact ⟨ha, h0, hv⟩
      · exact hkeep p hp'

/-- Every cell of a canonical memory fits. -/
theorem cell_fits {w : Nat} {m : Memory} (hm : m.wf w) (a : Nat) : Fits w (m.cell a) := by
  have hall := hm.2.2
  have : ∀ cells : List (Nat × Nat), (∀ p ∈ cells, Fits w p.2) → Fits w (lookupCell a cells) := by
    intro cells
    induction cells with
    | nil => exact fun _ => Nat.two_pow_pos w
    | cons p rest ih =>
      intro h
      by_cases hp : p.1 = a
      · simpa [lookupCell, hp] using h p List.mem_cons_self
      · simpa [lookupCell, hp] using ih fun q hq => h q (List.mem_cons_of_mem _ hq)
  exact this m.cells fun p hp => (hall p hp).2.2

/-! ### Placing cells and loading an image -/

/-- The memory with LEN raised to `n`. -/
theorem grow_wf {w : Nat} {m : Memory} {n : Nat} (hm : m.wf w) (hn : n ≤ 2 ^ w) :
    Memory.wf w { m with len := max m.len n } :=
  ⟨max_le hm.1 hn, hm.2.1, fun p hp =>
    ⟨lt_of_lt_of_le (hm.2.2 p hp).1 (le_max_left _ _), (hm.2.2 p hp).2⟩⟩

theorem place_wf {w : Nat} (vs : List Nat) {m : Memory} {a : Nat} (hm : m.wf w)
    (hlen : a + vs.length ≤ 2 ^ w) (hvs : ∀ v ∈ vs, Fits w v) : (m.place a vs).wf w := by
  induction vs generalizing m a with
  | nil => exact hm
  | cons v rest ih =>
    rw [List.length_cons] at hlen
    refine ih ?_ (by omega) fun x hx => hvs x (List.mem_cons_of_mem _ hx)
    exact set_wf (grow_wf hm (by omega)) (show a < max m.len (a + 1) by omega)
      (hvs v List.mem_cons_self)

theorem place_len (vs : List Nat) (m : Memory) (a : Nat) :
    (m.place a vs).len = if vs = [] then m.len else max m.len (a + vs.length) := by
  induction vs generalizing m a with
  | nil => rfl
  | cons v rest ih =>
    rw [Memory.place, ih]
    rcases rest with _ | ⟨_, _⟩
    · simp
    · simp
      omega

theorem place_cell_before {vs : List Nat} {m : Memory} {a i : Nat} (hi : i < a) :
    (m.place a vs).cell i = m.cell i := by
  induction vs generalizing m a with
  | nil => rfl
  | cons v rest ih =>
    rw [Memory.place, ih (by omega), cell_set_other (by omega)]
    rfl

theorem place_cell_at {vs : List Nat} {m : Memory} {a : Nat} {k : Nat} {v : Nat}
    (hk : vs[k]? = some v) : (m.place a vs).cell (a + k) = v := by
  induction vs generalizing m a k with
  | nil => simp at hk
  | cons x rest ih =>
    rw [Memory.place]
    cases k with
    | zero =>
      change (Memory.place _ (a + 1) rest).cell a = v
      rw [place_cell_before (by omega), cell_set_same]
      simpa using hk
    | succ k =>
      have := ih (m := Memory.set { m with len := max m.len (a + 1) } a x) (a := a + 1) (k := k)
        (by simpa using hk)
      rw [← this]
      congr 1
      omega

theorem place_cell_after {vs : List Nat} {m : Memory} {a i : Nat} (hi : a + vs.length ≤ i) :
    (m.place a vs).cell i = m.cell i := by
  induction vs generalizing m a with
  | nil => rfl
  | cons v rest ih =>
    rw [List.length_cons] at hi
    rw [Memory.place, ih (by omega), cell_set_other (by omega)]
    rfl

theorem ofImage_len (image : List Nat) : (Memory.ofImage image).len = image.length := by
  rw [Memory.ofImage, place_len]
  cases image <;> simp

theorem ofImage_read (image : List Nat) (i : Nat) : (Memory.ofImage image).read i = image[i]? := by
  by_cases hi : i < image.length
  · obtain ⟨v, hv⟩ : ∃ v, image[i]? = some v := ⟨image[i], List.getElem?_eq_getElem hi⟩
    have := place_cell_at (m := { len := 0, cells := [] }) (a := 0) hv
    rw [hv, read_eq_some, ofImage_len]
    exact ⟨hi, by simpa [Memory.ofImage] using this⟩
  · rw [List.getElem?_eq_none (by omega), read_eq_none, ofImage_len]
    omega

theorem ofImage_wf {w : Nat} {image : List Nat} (hlen : image.length ≤ 2 ^ w)
    (hfit : ∀ v ∈ image, Fits w v) : (Memory.ofImage image).wf w :=
  place_wf image ⟨Nat.zero_le _, List.Pairwise.nil, by simp⟩ (by simpa using hlen) hfit

/-- The memory after reset is in the canonical form. -/
theorem reset_mem_wf : State.reset.mem.wf State.reset.width := by decide

end Sys2Proof.Machine
end

