-- ==== Sys2Proof/Laws/State.lean ====
section
/-! SUPPORT. One lemma for each field and each named update of State, all true by rfl, so that no later proof
unfolds a record update. -/

namespace Sys2Proof.Machine

/-! ### A raise -/

@[simp] theorem raise_width (s : State) (r : Raise) : (s.raise r).width = s.width := rfl
@[simp] theorem raise_mem (s : State) (r : Raise) : (s.raise r).mem = s.mem := rfl
@[simp] theorem raise_ip (s : State) (r : Raise) : (s.raise r).ip = s.ip := rfl
@[simp] theorem raise_state (s : State) (r : Raise) : (s.raise r).state = .faulted := rfl
@[simp] theorem raise_fcause (s : State) (r : Raise) : (s.raise r).fcause = r.cause := rfl
@[simp] theorem raise_fvalue (s : State) (r : Raise) : (s.raise r).fvalue = r.info := rfl
@[simp] theorem cause_invalidOpcode (v : Nat) : (Raise.invalidOpcode v).cause = .invalidOpcode := rfl
@[simp] theorem cause_addressOutOfRange (a : Nat) :
    (Raise.addressOutOfRange a).cause = .addressOutOfRange := rfl
@[simp] theorem info_invalidOpcode (v : Nat) : (Raise.invalidOpcode v).info = v := rfl
@[simp] theorem info_addressOutOfRange (a : Nat) : (Raise.addressOutOfRange a).info = a := rfl

/-! ### Advancing -/

@[simp] theorem advance_width (s : State) : s.advance.width = s.width := rfl
@[simp] theorem advance_mem (s : State) : s.advance.mem = s.mem := rfl
@[simp] theorem advance_ip (s : State) : s.advance.ip = s.ip + 4 := rfl
@[simp] theorem advance_state (s : State) : s.advance.state = s.state := rfl
@[simp] theorem advance_fcause (s : State) : s.advance.fcause = s.fcause := rfl
@[simp] theorem advance_fvalue (s : State) : s.advance.fvalue = s.fvalue := rfl

/-! ### Halting -/

@[simp] theorem halt_width (s : State) : s.halt.width = s.width := rfl
@[simp] theorem halt_mem (s : State) : s.halt.mem = s.mem := rfl
@[simp] theorem halt_ip (s : State) : s.halt.ip = s.ip := rfl
@[simp] theorem halt_state (s : State) : s.halt.state = .halted := rfl
@[simp] theorem halt_fcause (s : State) : s.halt.fcause = s.fcause := rfl
@[simp] theorem halt_fvalue (s : State) : s.halt.fvalue = s.fvalue := rfl

/-! ### Starting a run -/

@[simp] theorem startRun_width (w : Nat) (m : Memory) : (startRun w m).width = w := rfl
@[simp] theorem startRun_mem (w : Nat) (m : Memory) : (startRun w m).mem = m := rfl
@[simp] theorem startRun_ip (w : Nat) (m : Memory) : (startRun w m).ip = 0 := rfl
@[simp] theorem startRun_state (w : Nat) (m : Memory) : (startRun w m).state = .running := rfl
@[simp] theorem startRun_fcause (w : Nat) (m : Memory) : (startRun w m).fcause = .none := rfl
@[simp] theorem startRun_fvalue (w : Nat) (m : Memory) : (startRun w m).fvalue = 0 := rfl

/-- The state after reset is the start of a run on the empty image. -/
theorem reset_eq_startRun : State.reset = startRun Config.defaultWidth (Memory.ofImage []) := rfl

end Sys2Proof.Machine
end

