-- ==== Sys2Proof/Laws/Operands.lean ====
section
/-! SUPPORT. What the access primitives and the shared procedure of ADD and MULT can do, said once. -/

namespace Sys2Proof.Machine

theorem memRead_eq_ok {s : State} {a : Nat} {v : Nat} :
    memRead s a = .ok v ↔ a < s.mem.len ∧ s.mem.cell a = v := by
  by_cases h : s.mem.len ≤ a
  · simp [memRead, h]
  · simp [memRead, h, Nat.lt_of_not_le h]

theorem memRead_eq_error {s : State} {a : Nat} {r : Raise} :
    memRead s a = .error r ↔ s.mem.len ≤ a ∧ r = .addressOutOfRange a := by
  by_cases h : s.mem.len ≤ a
  · simp [memRead, h, eq_comm]
  · simp [memRead, h]

theorem memWrite_eq_ok {s t : State} {a : Nat} {v : Nat} :
    memWrite s a v = .ok t ↔ a < s.mem.len ∧ t = { s with mem := s.mem.set a v } := by
  by_cases h : s.mem.len ≤ a
  · simp [memWrite, h]
  · simp [memWrite, h, Nat.lt_of_not_le h, eq_comm]

theorem narrow_fits (w n : Nat) : Fits w (narrow w n) := Nat.mod_lt _ (Nat.two_pow_pos w)

theorem narrow_of_fits {w n : Nat} (h : Fits w n) : narrow w n = n := Nat.mod_eq_of_lt h

/-- The state a completed ADD or MULT with result `v` and destination `c` leaves. -/
def completed (s : State) (c : Nat) (v : Nat) : State :=
  { s with mem := s.mem.set c v, ip := s.ip + 4 }

@[simp] theorem completed_width (s : State) (c : Nat) (v : Nat) :
    (completed s c v).width = s.width := rfl
@[simp] theorem completed_mem (s : State) (c : Nat) (v : Nat) :
    (completed s c v).mem = s.mem.set c v := rfl
@[simp] theorem completed_ip (s : State) (c : Nat) (v : Nat) :
    (completed s c v).ip = s.ip + 4 := rfl
@[simp] theorem completed_state (s : State) (c : Nat) (v : Nat) :
    (completed s c v).state = s.state := rfl
@[simp] theorem completed_fcause (s : State) (c : Nat) (v : Nat) :
    (completed s c v).fcause = s.fcause := rfl
@[simp] theorem completed_fvalue (s : State) (c : Nat) (v : Nat) :
    (completed s c v).fvalue = s.fvalue := rfl

/-- The procedure ADD and MULT share, as one chain of checks in the order of 40_arithmetic.md R57. -/
theorem quadExecute_eq (f : Nat → Nat → Nat) (a b c : Nat) (s : State) :
    quadExecute f a b c s = .next
      (if s.mem.len ≤ s.ip + 3 then s.raise (.addressOutOfRange s.mem.len)
      else if s.mem.len ≤ a then s.raise (.addressOutOfRange a)
      else if s.mem.len ≤ b then s.raise (.addressOutOfRange b)
      else if s.mem.len ≤ c then s.raise (.addressOutOfRange c)
      else completed s c (f (s.mem.cell a) (s.mem.cell b))) := by
  unfold quadExecute quadAttempt checkWindow operandValue memRead checkAddress memWrite
  by_cases hw : s.mem.len ≤ s.ip + 3
  · simp [hw, settle]
  by_cases ha : s.mem.len ≤ a
  · simp [hw, ha, settle]
  by_cases hb : s.mem.len ≤ b
  · simp [hw, ha, hb, settle]
  by_cases hc : s.mem.len ≤ c
  · simp [hw, ha, hb, hc, settle]
  · simp only [hw, ha, hb, hc, settle, if_false]
    rfl

/-- Everything the shared procedure can answer: a raise of an address that does not exist, or completion. -/
theorem quadExecute_cases {f : Nat → Nat → Nat} {a b c : Nat} {s t : State}
    (h : quadExecute f a b c s = .next t) :
    (∃ x, s.mem.len ≤ x ∧ (x = s.mem.len ∨ x = a ∨ x = b ∨ x = c) ∧
      t = s.raise (.addressOutOfRange x)) ∨
    (s.ip + 3 < s.mem.len ∧ a < s.mem.len ∧ b < s.mem.len ∧ c < s.mem.len ∧
      t = completed s c (f (s.mem.cell a) (s.mem.cell b))) := by
  rw [quadExecute_eq, Host.Outcome.next.injEq] at h
  subst h
  split_ifs with hw ha hb hc
  · exact .inl ⟨_, le_refl _, .inl rfl, rfl⟩
  · exact .inl ⟨_, ha, .inr (.inl rfl), rfl⟩
  · exact .inl ⟨_, hb, .inr (.inr (.inl rfl)), rfl⟩
  · exact .inl ⟨_, hc, .inr (.inr (.inr rfl)), rfl⟩
  · exact .inr ⟨by omega, by omega, by omega, by omega, rfl⟩

end Sys2Proof.Machine
end

