-- ==== Sys2Proof/Laws/PerInstr.lean ====
section
/-! SUPPORT. Facts stated for each constructor of Instr. -/

namespace Sys2Proof.Laws

/-- The cells of a well-formed instruction are cells of the width it is well-formed for. -/
def EncodedCellsFit.Statement (i : Instr) : Prop :=
  ∀ w, Config.minWidth ≤ w → i.wellFormed w = true → ∀ v ∈ encode i, Fits w v

/-- An opcode fits a cell of any legal width. -/
theorem fits_of_lt_128 {w v : Nat} (hw : Config.minWidth ≤ w) (hv : v < 128) : Fits w v :=
  lt_of_lt_of_le hv (Nat.pow_le_pow_right (n := 2) (by decide) hw)

theorem EncodedCellsFit.add (a b c : Nat) : EncodedCellsFit.Statement (.add a b c) := by
  intro w hw hwf
  simp only [Instr.wellFormed, Bool.and_eq_true, decide_eq_true_eq] at hwf
  simpa [encode, hwf] using fits_of_lt_128 hw (by decide)

theorem EncodedCellsFit.mult (a b c : Nat) : EncodedCellsFit.Statement (.mult a b c) := by
  intro w hw hwf
  simp only [Instr.wellFormed, Bool.and_eq_true, decide_eq_true_eq] at hwf
  simpa [encode, hwf] using fits_of_lt_128 hw (by decide)

theorem EncodedCellsFit.halt : EncodedCellsFit.Statement .halt := by
  intro w hw _
  simpa [encode] using fits_of_lt_128 hw (by decide)

end Sys2Proof.Laws
end

