-- ==== Sys2Proof/Laws/Step.lean ====
section
/-! SUPPORT. What one step can do, said once: its value in a RUNNING state as one chain of checks, and the cases a
next state falls under. -/

namespace Sys2Proof.Machine

/-- The window of a RUNNING state as its decoder sees it. -/
theorem decode_fetchWindow (s : State) :
    decode (fetchWindow s) =
      if s.mem.len ≤ s.ip then .error .noCell
      else match decodeOpcode (s.mem.cell s.ip) with
        | none => .error (.invalidOpcode (s.mem.cell s.ip))
        | some .halt => .ok (.halt, fetchCells s.mem (s.ip + 1) 3)
        | some .add =>
          if s.mem.len ≤ s.ip + 3 then .error .windowCutOff
          else .ok (.add (s.mem.cell (s.ip + 1)) (s.mem.cell (s.ip + 2)) (s.mem.cell (s.ip + 3)), [])
        | some .mult =>
          if s.mem.len ≤ s.ip + 3 then .error .windowCutOff
          else .ok (.mult (s.mem.cell (s.ip + 1)) (s.mem.cell (s.ip + 2)) (s.mem.cell (s.ip + 3)), []) := by
  have hquad : ∀ make : Nat → Nat → Nat → Instr,
      quadFields make (fetchCells s.mem (s.ip + 1) 3) =
        if s.mem.len ≤ s.ip + 3 then .error .windowCutOff
        else .ok (make (s.mem.cell (s.ip + 1)) (s.mem.cell (s.ip + 2)) (s.mem.cell (s.ip + 3)), []) := by
    intro make
    by_cases h1 : s.ip + 1 < s.mem.len
    · by_cases h2 : s.ip + 1 + 1 < s.mem.len
      · by_cases h3 : s.ip + 1 + 1 + 1 < s.mem.len
        · have : ¬ s.mem.len ≤ s.ip + 3 := by omega
          simp [fetchCells, Memory.read, h1, h2, h3, quadFields, this]
        · have : s.mem.len ≤ s.ip + 3 := by omega
          simp [fetchCells, Memory.read, h1, h2, h3, quadFields, this]
      · have : s.mem.len ≤ s.ip + 3 := by omega
        simp [fetchCells, Memory.read, h1, h2, quadFields, this]
    · have : s.mem.len ≤ s.ip + 3 := by omega
      simp [fetchCells, Memory.read, h1, quadFields, this]
  by_cases h0 : s.mem.len ≤ s.ip
  · have hn : ¬ s.ip < s.mem.len := by omega
    simp [fetchWindow, stride, fetchCells.eq_2 _ _ 3, Memory.read, decode, h0, hn]
  · have hlt : s.ip < s.mem.len := by omega
    have hw : fetchWindow s = s.mem.cell s.ip :: fetchCells s.mem (s.ip + 1) 3 := by
      simp [fetchWindow, stride, fetchCells.eq_2 _ _ 3, Memory.read, hlt]
    rw [hw, decode, if_neg h0]
    rcases decodeOpcode (s.mem.cell s.ip) with _ | (_ | _ | _)
    · rfl
    · exact hquad _
    · exact hquad _
    · rfl

/-- A step of a RUNNING state: the fetch's faults, or the instruction at `ip` (41_control.md R64). -/
theorem step_of_running {s : State} (hs : s.state = .running) :
    step s =
      if s.mem.len ≤ s.ip then .next (s.raise (.addressOutOfRange s.ip))
      else match decodeOpcode (s.mem.cell s.ip) with
        | none => .next (s.raise (.invalidOpcode (s.mem.cell s.ip)))
        | some .halt => exec .halt s
        | some .add =>
          exec (.add (s.mem.cell (s.ip + 1)) (s.mem.cell (s.ip + 2)) (s.mem.cell (s.ip + 3))) s
        | some .mult =>
          exec (.mult (s.mem.cell (s.ip + 1)) (s.mem.cell (s.ip + 2)) (s.mem.cell (s.ip + 3))) s := by
  unfold step
  rw [hs]
  simp only [decode_fetchWindow]
  by_cases h0 : s.mem.len ≤ s.ip
  · simp [h0, fetchRaise]
  · simp only [h0, if_false]
    rcases decodeOpcode (s.mem.cell s.ip) with _ | (_ | _ | _)
    · rfl
    · by_cases hw : s.mem.len ≤ s.ip + 3
      · simp [hw, fetchRaise, exec, execAdd, quadExecute_eq]
      · simp [hw]
    · by_cases hw : s.mem.len ≤ s.ip + 3
      · simp [hw, fetchRaise, exec, execMult, quadExecute_eq]
      · simp [hw]
    · rfl

/-- Everything a step can answer with a next state: a raise at the fetch or the decoder, HALT, or the shared
procedure of ADD and MULT. -/
theorem step_cases {s t : State} (h : step s = .next t) :
    s.state = .running ∧
    ((s.mem.len ≤ s.ip ∧ t = s.raise (.addressOutOfRange s.ip)) ∨
      (s.ip < s.mem.len ∧ decodeOpcode (s.mem.cell s.ip) = none ∧
        t = s.raise (.invalidOpcode (s.mem.cell s.ip))) ∨
      (s.ip < s.mem.len ∧ s.mem.cell s.ip = 99 ∧ t = s.halt) ∨
      (s.ip < s.mem.len ∧ s.mem.cell s.ip = 1 ∧
        quadExecute (aluAdd s.width) (s.mem.cell (s.ip + 1)) (s.mem.cell (s.ip + 2))
          (s.mem.cell (s.ip + 3)) s = .next t) ∨
      (s.ip < s.mem.len ∧ s.mem.cell s.ip = 2 ∧
        quadExecute (aluMult s.width) (s.mem.cell (s.ip + 1)) (s.mem.cell (s.ip + 2))
          (s.mem.cell (s.ip + 3)) s = .next t)) := by
  have hrun : s.state = .running := by
    cases hs : s.state with
    | running => rfl
    | halted => simp [step, hs] at h
    | faulted => simp [step, hs] at h
  refine ⟨hrun, ?_⟩
  rw [step_of_running hrun] at h
  by_cases h0 : s.mem.len ≤ s.ip
  · simp only [h0, if_true, Host.Outcome.next.injEq] at h
    exact .inl ⟨h0, h.symm⟩
  have hlt : s.ip < s.mem.len := by omega
  simp only [h0, if_false] at h
  cases hop : decodeOpcode (s.mem.cell s.ip) with
  | none =>
    simp only [hop, Host.Outcome.next.injEq] at h
    exact .inr (.inl ⟨hlt, rfl, h.symm⟩)
  | some op =>
    cases op with
    | halt =>
      simp only [hop, exec, execHalt, Host.Outcome.next.injEq] at h
      exact .inr (.inr (.inl ⟨hlt, decodeOpcode_eq_halt.1 hop, h.symm⟩))
    | add =>
      simp only [hop] at h
      exact .inr (.inr (.inr (.inl ⟨hlt, decodeOpcode_eq_add.1 hop, h⟩)))
    | mult =>
      simp only [hop] at h
      exact .inr (.inr (.inr (.inr ⟨hlt, decodeOpcode_eq_mult.1 hop, h⟩)))

/-- What loading one instruction leaves as it was. -/
theorem withFetchWord_ip (s : State) (nbits w : Nat) : (s.withFetchWord nbits w).ip = s.ip := rfl

end Sys2Proof.Machine
end

