-- ==== Sys2Proof/Tests/Slice0.lean ====
section
/-! SUPPORT. Tests on small states, expected values from spec/95_test_vectors.md or worked by hand from the rules the
names cite; the well-formedness smoke; and for each statement with hypotheses a state and operands that meet them. -/

namespace Sys2Proof.Tests

open Sys2Proof.Machine

/-- The machine at the start of a run on an image. -/
def boot (w : Nat) (image : List Nat) : State := startRun w (Memory.ofImage image)

/-- The machine in the middle of a run, its opcode cell at `ip`. -/
def bootAt (ip : Nat) (image : List Nat) : State := { boot 32 image with ip := ip }

/-- The next state of an outcome. -/
def nextOf : Host.Outcome State Fault Refusal → Option State
  | .next t => some t
  | .fault _ => none
  | .refused _ => none

/-- The image of a state's memory, its registers and how it ended, read through the model's own reads. -/
def view (s : State) : List (Option Nat) × Nat × RunState × FaultCause × Nat :=
  ((List.range s.mem.len).map s.mem.read, s.ip, s.state, s.fcause, s.fvalue)

/-- What one step from an image leaves. -/
def stepView (w : Nat) (image : List Nat) : Option (List (Option Nat) × Nat × RunState × FaultCause × Nat) :=
  (nextOf (step (boot w image))).map view

/-! ### Well-formedness: each check refuses an ill-formed term -/

theorem test_wf_add_source_one_too_wide : (Instr.add (2 ^ 32) 0 0).wellFormed 32 = false := by decide
theorem test_wf_add_source_two_too_wide : (Instr.add 0 (2 ^ 32) 0).wellFormed 32 = false := by decide
theorem test_wf_add_destination_too_wide : (Instr.add 0 0 (2 ^ 32)).wellFormed 32 = false := by decide
theorem test_wf_mult_source_one_too_wide : (Instr.mult 128 0 0).wellFormed 7 = false := by decide
theorem test_wf_mult_source_two_too_wide : (Instr.mult 0 128 0).wellFormed 7 = false := by decide
theorem test_wf_mult_destination_too_wide : (Instr.mult 0 0 128).wellFormed 7 = false := by decide
theorem test_wf_largest_fields :
    (Instr.add (2 ^ 32 - 1) (2 ^ 32 - 1) (2 ^ 32 - 1)).wellFormed 32 = true := by decide

/-! ### Decoding: words written out from 30_encoding.md R46, R47, R50 -/

theorem test_decode_add : decode [1, 9, 10, 3] = .ok (.add 9 10 3, []) := by decide
theorem test_decode_mult : decode [2, 3, 11, 0] = .ok (.mult 3 11 0, []) := by decide
theorem test_decode_halt : decode [99, 30, 40, 50] = .ok (.halt, [30, 40, 50]) := by decide
theorem test_decode_word_add :
    decodeTableWord 128 0x0000000700000006_0000000500000001 = some (.add 5 6 7) := by decide
theorem test_decode_word_mult :
    decodeTableWord 128 0x0000000700000006_0000000500000002 = some (.mult 5 6 7) := by decide
theorem test_decode_word_halt : decodeTableWord 32 0x00000063 = some .halt := by decide
/-- V45: no mode digits, 101 is not ADD. -/
theorem test_decode_rejects_mode_digits : decode [101, 0, 0, 0] = .error (.invalidOpcode 101) := by decide
/-- V48: an invalid opcode in a cut-off window is an invalid opcode. -/
theorem test_decode_invalid_before_cut_off : decode [7] = .error (.invalidOpcode 7) := by decide
theorem test_decode_cut_off : decode [1, 0, 0] = .error .windowCutOff := by decide
theorem test_assemble_listing :
    assemble [.code (.add 9 10 3), .code (.mult 3 11 0), .code .halt, .data [30, 40, 50]] =
      [1, 9, 10, 3, 2, 3, 11, 0, 99, 30, 40, 50] := by decide

/-! ### One step of each instruction -/

/-- S2: the destination is both sources and the instruction's own opcode cell. -/
theorem test_add_own_opcode_cell : stepView 32 [1, 0, 0, 0, 99] =
    some ([some 2, some 0, some 0, some 0, some 99], 4, .running, .none, 0) := by decide
/-- V12: the sum wraps at `W = 8`. -/
theorem test_add_wraps : stepView 8 [1, 5, 6, 7, 99, 200, 100, 0] =
    some ([some 1, some 5, some 6, some 7, some 99, some 200, some 100, some 44], 4, .running, .none, 0) := by
  decide
/-- S3: the destination is the instruction's own destination field. -/
theorem test_mult_own_destination_cell : stepView 32 [2, 3, 0, 3, 99] =
    some ([some 2, some 3, some 0, some 6, some 99], 4, .running, .none, 0) := by decide
/-- V16: the product wraps to 0, and 0 replaces the 9. -/
theorem test_mult_wraps_to_zero : stepView 32 [2, 5, 6, 7, 99, 65536, 65536, 9] =
    some ([some 2, some 5, some 6, some 7, some 99, some 65536, some 65536, some 0], 4, .running, .none, 0) := by
  decide
/-- V25: HALT as the whole memory. -/
theorem test_halt_single_cell : stepView 32 [99] = some ([some 99], 0, .halted, .none, 0) := by decide
/-- V28: HALT in the last cell, in the middle of a run. -/
theorem test_halt_last_cell : (nextOf (step (bootAt 4 [2, 0, 0, 0, 99]))).map view =
    some ([some 2, some 0, some 0, some 0, some 99], 4, .halted, .none, 0) := by decide

/-! ### Faults -/

/-- V29: an empty memory. -/
theorem test_fault_empty_memory : stepView 32 [] = some ([], 0, .faulted, .addressOutOfRange, 0) := by decide
/-- V31: a cut-off window reports LEN. -/
theorem test_fault_window_cut_off : stepView 32 [1, 0, 0] =
    some ([some 1, some 0, some 0], 0, .faulted, .addressOutOfRange, 3) := by decide
/-- V38: of three bad addresses the first source is reported. -/
theorem test_fault_source_one_first : stepView 32 [1, 9, 8, 7, 99] =
    some ([some 1, some 9, some 8, some 7, some 99], 0, .faulted, .addressOutOfRange, 9) := by decide
/-- V36: a bad destination, nothing written. -/
theorem test_fault_destination : stepView 32 [1, 0, 0, 9, 99] =
    some ([some 1, some 0, some 0, some 9, some 99], 0, .faulted, .addressOutOfRange, 9) := by decide
/-- V42: the first value after MULT. -/
theorem test_fault_invalid_opcode : stepView 32 [3, 0, 0, 0, 99] =
    some ([some 3, some 0, some 0, some 0, some 99], 0, .faulted, .invalidOpcode, 3) := by decide
/-- R97: with the seeds 12 and 2 the first ADD adds `mem[12] = 7` and the seed 2 itself. -/
theorem test_part_one :
    (partOneRun 32 [1, 0, 0, 0, 99, 0, 0, 0, 0, 0, 0, 0, 7]).map hostResult = .ok (some 9) := by decide
/-- H6: a seeded run of a short template is refused. -/
theorem test_seed_short_template : seededStart 32 [99, 0] 12 2 = .error .seedMemoryTooShort := by decide
/-- H4: the search aborts at the first candidate whose run faults. -/
theorem test_search_aborts : findPair 32 [1, 0, 0, 0, 99] 1000 = .aborted 0 5 := by decide

/-! ### Witnesses: the hypotheses of the statements can be met -/

theorem witness_LoadedImageIsResetState : [0, 1].length ≤ 2 ^ 1 ∧ ∀ v ∈ [0, 1], v < 2 ^ 1 := by decide
theorem witness_UnloadableImageIsRefused_long : 2 ^ 1 < [0, 0, 0].length := by decide
theorem witness_UnloadableImageIsRefused_wide : [2].length ≤ 2 ^ 1 ∧ ∃ v ∈ [2], 2 ^ 1 ≤ v := by decide
theorem witness_MemReadReturnsCellOrRaises :
    (boot 32 [7]).mem.len ≤ 1 ∧ 0 < (boot 32 [7]).mem.len := by decide
theorem witness_MemWriteChangesOneCell :
    2 ^ 32 - 1 < 2 ^ (boot 32 [7]).width ∧ (boot 32 [7]).mem.len ≤ 1 ∧ 0 < (boot 32 [7]).mem.len := by decide
theorem witness_MemWriteChangesOneCell_step :
    ∃ t, step (boot 32 [1, 0, 0, 0, 99]) = .next t ∧
      t.mem.read 0 ≠ (boot 32 [1, 0, 0, 0, 99]).mem.read 0 := ⟨_, rfl, by decide⟩
theorem witness_EqualReadsMeanEqualMemories :
    (Memory.ofImage [1, 0, 5]).wf 7 ∧ ∀ a, (Memory.ofImage [1, 0, 5]).read a = (Memory.ofImage [1, 0, 5]).read a :=
  ⟨by decide, fun _ => rfl⟩
theorem witness_DecoderComparesWholeCell_invalid : (100 ≠ 1 ∧ 100 ≠ 2 ∧ 100 ≠ 99) ∧
    (boot 32 [100]).mem.read (boot 32 [100]).ip = some 100 ∧ decodeOpcode 100 = none := by decide
theorem witness_DecoderComparesWholeCell_halt : (boot 32 [99]).mem.read (boot 32 [99]).ip = some 99 ∧
    decodeOpcode 99 = some .halt := by decide
/-- Two address cells are one too few, three are enough. -/
theorem witness_DecoderComparesWholeCell_add : decodeOpcode 1 = some .add ∧
    (boot 32 [1, 0, 0]).mem.read 0 = some 1 ∧ fetchWindow (boot 32 [1, 0, 0]) = [1, 0, 0] ∧
    (boot 32 [1, 0, 0, 3]).mem.read 0 = some 1 ∧ fetchWindow (boot 32 [1, 0, 0, 3]) = [1, 0, 0, 3] := by decide
theorem witness_DecoderComparesWholeCell_mult : decodeOpcode 2 = some .mult ∧
    (boot 32 [2, 0, 0]).mem.read 0 = some 2 ∧ fetchWindow (boot 32 [2, 0, 0]) = [2, 0, 0] ∧
    (boot 32 [2, 0, 0, 3]).mem.read 0 = some 2 ∧ fetchWindow (boot 32 [2, 0, 0, 3]) = [2, 0, 0, 3] := by decide
theorem witness_PackedEncodingRoundTrip :
    Config.minWidth ≤ 7 ∧ (Instr.add 127 127 127).wellFormed 7 = true := by decide
theorem witness_AluResultTable : 1 ≤ 1 ∧ 1 < 2 ^ 1 ∧ 1 < 2 ^ 1 := by decide
/-- `b` and `c` are the last cell of memory. -/
theorem witness_AddCompletesWithSum : let s := boot 32 [1, 0, 3, 3]
    s.ip + 3 < s.mem.len ∧ s.mem.read 0 = some 1 ∧ s.mem.read 3 = some 3 ∧ 3 < s.mem.len := by decide
theorem witness_MultCompletesWithProduct : let s := boot 32 [2, 0, 3, 3]
    s.ip + 3 < s.mem.len ∧ s.mem.read 0 = some 2 ∧ s.mem.read 3 = some 3 ∧ 3 < s.mem.len := by decide
theorem witness_QuadFaultsInOrder_window : (boot 32 [1, 0, 0]).mem.len ≤ (boot 32 [1, 0, 0]).ip + 3 := by decide
theorem witness_QuadFaultsInOrder_sources : let s := boot 32 [2, 4, 4, 4]
    s.ip + 3 < s.mem.len ∧ s.mem.len ≤ 4 ∧ 3 < s.mem.len := by decide
theorem witness_QuadFrame_completes : ∃ t, exec (.add 0 3 3) (boot 32 [1, 0, 3, 3]) = .next t := ⟨_, rfl⟩
theorem witness_QuadFrame_faults : ∃ t, exec (.mult 4 3 3) (boot 32 [2, 4, 3, 3]) = .next t := ⟨_, rfl⟩
theorem witness_StepRunsDecodedInstruction : (boot 32 [1, 0, 3, 3]).state = .running ∧
    decode (fetchWindow (boot 32 [1, 0, 3, 3])) = .ok (.add 0 3 3, []) := by decide
theorem witness_QuadStepFollowsProcedure_window : let s := boot 32 [2, 0, 0]
    s.state = .running ∧ s.mem.read s.ip = some 2 ∧ s.mem.len ≤ s.ip + 3 := by decide
theorem witness_QuadStepFollowsProcedure_source_one : let s := boot 32 [1, 4, 0, 0]
    s.state = .running ∧ s.mem.read s.ip = some 1 ∧ s.mem.read (s.ip + 1) = some 4 ∧
      s.mem.read (s.ip + 2) = some 0 ∧ s.mem.read (s.ip + 3) = some 0 ∧ s.mem.read 4 = none := by decide
theorem witness_QuadStepFollowsProcedure_source_two : let s := boot 32 [1, 3, 4, 0]
    s.state = .running ∧ s.mem.read s.ip = some 1 ∧ s.mem.read (s.ip + 1) = some 3 ∧
      s.mem.read (s.ip + 2) = some 4 ∧ s.mem.read (s.ip + 3) = some 0 ∧ s.mem.read 3 = some 0 ∧
      s.mem.read 4 = none := by decide
theorem witness_QuadStepFollowsProcedure_destination : let s := boot 32 [2, 3, 3, 4]
    s.state = .running ∧ s.mem.read s.ip = some 2 ∧ s.mem.read (s.ip + 1) = some 3 ∧
      s.mem.read (s.ip + 2) = some 3 ∧ s.mem.read (s.ip + 3) = some 4 ∧ s.mem.read 3 = some 4 ∧
      s.mem.len ≤ 4 := by decide
theorem witness_QuadStepFollowsProcedure_completes : let s := boot 32 [2, 3, 3, 3]
    s.state = .running ∧ s.mem.read s.ip = some 2 ∧ s.mem.read (s.ip + 1) = some 3 ∧
      s.mem.read (s.ip + 2) = some 3 ∧ s.mem.read (s.ip + 3) = some 3 ∧ s.mem.read 3 = some 3 ∧
      3 < s.mem.len := by decide
theorem witness_SingleStepPropertyInPreState_add : ∃ t, step (boot 32 [1, 0, 0, 0, 99]) = .next t ∧
    t.state = .running ∧ (boot 32 [1, 0, 0, 0, 99]).mem.read 0 = some 1 ∧
      ∀ k ∈ [1, 2, 3], (boot 32 [1, 0, 0, 0, 99]).mem.read k = some 0 := ⟨_, rfl, by decide⟩
theorem witness_SingleStepPropertyInPreState_mult : ∃ t, step (boot 32 [2, 0, 0, 0, 99]) = .next t ∧
    t.state = .running ∧ (boot 32 [2, 0, 0, 0, 99]).mem.read 0 = some 2 ∧
      ∀ k ∈ [1, 2, 3], (boot 32 [2, 0, 0, 0, 99]).mem.read k = some 0 := ⟨_, rfl, by decide⟩
/-- The invariant holds of the machine at the start of a run on a loadable image. -/
theorem boot_inv {w : Nat} {image : List Nat} (hw : Config.minWidth ≤ w) (hlen : image.length ≤ 2 ^ w)
    (hfit : ∀ v ∈ image, Fits w v) : (boot w image).Inv :=
  ⟨hw, ofImage_wf hlen hfit, rfl, Nat.zero_le _, by simp [boot], fun _ => rfl, Nat.zero_le _⟩
theorem witness_HaltStepChangesRunStateOnly : (boot 32 [99]).state = .running ∧
    (boot 32 [99]).mem.read (boot 32 [99]).ip = some 99 ∧ (boot 32 [99]).Inv :=
  ⟨rfl, by decide, boot_inv (by decide) (by decide) (by decide)⟩
theorem witness_InvalidOpcodeFaults : (boot 32 [98]).state = .running ∧
    (boot 32 [98]).mem.read (boot 32 [98]).ip = some 98 ∧ 98 ≠ 1 ∧ 98 ≠ 2 ∧ 98 ≠ 99 := by decide
theorem witness_InvalidOpcodeFaults_exec : ∃ t, exec (.add 4 0 0) (boot 32 [1, 4, 0, 0]) = .next t ∧
    (boot 32 [1, 4, 0, 0]).fcause ≠ .invalidOpcode := ⟨_, rfl, by decide⟩
theorem witness_FirstFaultIsReported_fetch : (boot 32 []).state = .running ∧
    (boot 32 []).mem.len ≤ (boot 32 []).ip ∧ (boot 32 []).Inv :=
  ⟨rfl, by decide, boot_inv (by decide) (by decide) (by decide)⟩
theorem witness_FirstFaultIsReported_opcode : (boot 32 [100]).state = .running ∧
    (boot 32 [100]).mem.read 0 = some 100 ∧ (boot 32 [99]).mem.read 0 = some 99 := by decide
theorem witness_FirstFaultIsReported_window : let s := boot 32 [1]
    s.state = .running ∧ s.mem.read s.ip = some 1 ∧ s.mem.len ≤ s.ip + 3 := by decide
theorem witness_FirstFaultIsReported_source_one : let s := boot 32 [1, 5, 0, 0, 99]
    s.mem.read s.ip = some 1 ∧ s.mem.read (s.ip + 1) = some 5 ∧ s.mem.read (s.ip + 2) = some 0 ∧
      s.mem.read (s.ip + 3) = some 0 ∧ s.mem.len ≤ 5 := by decide
theorem witness_FirstFaultIsReported_source_two : let s := boot 32 [1, 4, 5, 0, 99]
    s.mem.read s.ip = some 1 ∧ s.mem.read (s.ip + 1) = some 4 ∧ s.mem.read (s.ip + 2) = some 5 ∧
      s.mem.read (s.ip + 3) = some 0 ∧ 4 < s.mem.len ∧ s.mem.len ≤ 5 := by decide
theorem witness_FirstFaultIsReported_destination : let s := boot 32 [2, 4, 4, 5, 99]
    s.mem.read s.ip = some 2 ∧ s.mem.read (s.ip + 1) = some 4 ∧ s.mem.read (s.ip + 2) = some 4 ∧
      s.mem.read (s.ip + 3) = some 5 ∧ 4 < s.mem.len ∧ s.mem.len ≤ 5 := by decide
theorem witness_FirstFaultIsReported_none : let s := boot 32 [2, 4, 4, 4, 99]
    s.mem.read s.ip = some 2 ∧ s.mem.read (s.ip + 1) = some 4 ∧ s.mem.read (s.ip + 2) = some 4 ∧
      s.mem.read (s.ip + 3) = some 4 ∧ 4 < s.mem.len := by decide
theorem witness_FaultChangesNothingElse : ∃ t, step (boot 32 [7]) = .next t ∧ t.state = .faulted :=
  ⟨_, rfl, by decide⟩
theorem witness_FaultedIsSticky : ((boot 32 [7]).raise (.invalidOpcode 7)).state = .faulted := by decide
theorem witness_StepExistsExactlyWhenRunning : (boot 32 [99]).halt.state = .halted ∧
    ((boot 32 [7]).raise (.invalidOpcode 7)).state = .faulted := by decide
theorem witness_RunStateTransitions : ∃ t u v, step (boot 32 [99]) = .next t ∧ t.state = .halted ∧
    step (boot 32 [1, 0, 0, 3]) = .next u ∧ u.state = .running ∧
    step (boot 32 [1, 0, 0, 4]) = .next v ∧ v.state = .faulted :=
  ⟨_, _, _, rfl, by decide, rfl, by decide, rfl, by decide⟩
theorem witness_TerminalIpIsPosition_halted : ∃ t, step (bootAt 4 [2, 0, 0, 0, 99]) = .next t ∧
    t.state = .halted := ⟨_, rfl, by decide⟩
theorem witness_TerminalIpIsPosition_fetch : ∃ t, step (bootAt 4 [2, 0, 0, 0]) = .next t ∧
    t.state = .faulted ∧ t.mem.read t.ip = none := ⟨_, rfl, by decide⟩
theorem witness_TerminalIpIsPosition_opcode : ∃ t, step (boot 32 [7]) = .next t ∧
    t.state = .faulted ∧ t.fcause = .invalidOpcode := ⟨_, rfl, by decide⟩
theorem witness_IpAdvancesByFourOnCompletion : ∃ t u, step (boot 32 [1, 0, 0, 3]) = .next t ∧
    t.state = .running ∧ step (boot 32 [1, 0, 0, 4]) = .next u ∧ u.state ≠ .running :=
  ⟨_, _, rfl, by decide, rfl, by decide⟩
theorem witness_ParametersNeverChange : ∃ t, step (boot 32 [1, 0, 0, 3]) = .next t := ⟨_, rfl⟩
theorem witness_FaultNeedsItsCause : ∃ t u, step (boot 32 [98]) = .next t ∧ t.state = .faulted ∧
    step (boot 32 [1, 4, 0, 0]) = .next u ∧ u.state = .faulted := ⟨_, _, rfl, by decide, rfl, by decide⟩
/-- The hypotheses that StoreAheadDecidesNextStep and AliasingCases share, for an image at `ip = 0`. -/
def quadHypotheses (image : List Nat) (op a b c va vb : Nat) : Prop :=
  let s := boot 32 image
  s.state = .running ∧ s.mem.read s.ip = some op ∧ (op = 1 ∨ op = 2) ∧ s.mem.read (s.ip + 1) = some a ∧
    s.mem.read (s.ip + 2) = some b ∧ s.mem.read (s.ip + 3) = some c ∧ s.mem.read a = some va ∧
    s.mem.read b = some vb ∧ c < s.mem.len
/-- P7's first step in small: 98 + 1 = 99 is written over the next opcode cell. -/
theorem witness_StoreAheadDecidesNextStep_halt :
    quadHypotheses [1, 5, 6, 4, 1, 98, 1] 1 5 6 4 98 1 ∧ (98 + 1) % 2 ^ 32 = 99 := by
  unfold quadHypotheses; decide
/-- V11: 1 + 2 = 3 is written over the next opcode cell. -/
theorem witness_StoreAheadDecidesNextStep_invalid :
    quadHypotheses [1, 5, 6, 4, 99, 1, 2] 1 5 6 4 1 2 ∧ (1 + 2) % 2 ^ 32 = 3 := by
  unfold quadHypotheses; decide
/-- S4: 1 + 1 = 2 is written over the 99, and the next step is a MULT. -/
theorem witness_StoreAheadDecidesNextStep_mult : let image := [1, 1, 1, 4, 99, 5, 6, 0, 99]
    quadHypotheses image 1 1 1 4 1 1 ∧ (1 + 1) % 2 ^ 32 = 2 ∧
      (boot 32 image).mem.read 5 = some 5 ∧ (boot 32 image).mem.read 6 = some 6 ∧
      (boot 32 image).mem.read 7 = some 0 := by
  unfold quadHypotheses; decide
/-- 1 * 1 = 1 is written over the 99, and the next step is an ADD. -/
theorem witness_StoreAheadDecidesNextStep_add : let image := [2, 8, 8, 4, 99, 5, 6, 0, 1]
    quadHypotheses image 2 8 8 4 1 1 ∧ (1 * 1) % 2 ^ 32 = 1 ∧
      (boot 32 image).mem.read 5 = some 5 ∧ (boot 32 image).mem.read 6 = some 6 ∧
      (boot 32 image).mem.read 7 = some 0 := by
  unfold quadHypotheses; decide
/-- 1 + 0 = 1 is written over the next opcode cell, whose window lacks its last cell. -/
theorem witness_StoreAheadDecidesNextStep_cut_off : let image := [1, 5, 6, 4, 0, 1, 0]
    quadHypotheses image 1 5 6 4 1 0 ∧ (1 + 0) % 2 ^ 32 = 1 ∧ (boot 32 image).mem.len ≤ 0 + 7 := by
  unfold quadHypotheses; decide
/-- `a = b = c = ip`, and `c` among the instruction's own cells. -/
theorem witness_AliasingCases_all_ip : quadHypotheses [1, 0, 0, 0] 1 0 0 0 1 1 := by
  unfold quadHypotheses; decide
/-- `a = ip+1`, `b = ip+2`. -/
theorem witness_AliasingCases_own_fields : quadHypotheses [2, 1, 2, 0] 2 1 2 0 1 2 := by
  unfold quadHypotheses; decide
/-- `a = ip+3`, and `c = ip+3`. -/
theorem witness_AliasingCases_destination_field : quadHypotheses [2, 3, 0, 3] 2 3 0 3 3 2 := by
  unfold quadHypotheses; decide
/-- `c = ip+4` and `c = ip+7`, the first and the last cell of the next window. -/
theorem witness_AliasingCases_next_window :
    quadHypotheses [1, 0, 0, 4, 9] 1 0 0 4 1 1 ∧ quadHypotheses [1, 0, 0, 7, 9, 9, 9, 9] 1 0 0 7 1 1 := by
  unfold quadHypotheses; decide
/-- `c < ip`: the second instruction writes cell 3. -/
theorem witness_AliasingCases_behind : let s := bootAt 4 [1, 0, 0, 0, 2, 0, 0, 3]
    s.state = .running ∧ s.mem.read s.ip = some 2 ∧ s.mem.read (s.ip + 1) = some 0 ∧
      s.mem.read (s.ip + 2) = some 0 ∧ s.mem.read (s.ip + 3) = some 3 ∧ s.mem.read 0 = some 1 ∧
      3 < s.mem.len ∧ 3 < s.ip := by decide
theorem witness_FaultRegistersAreInvisible : (boot 32 [1, 0, 0, 0]).state = .running := rfl
theorem witness_WiderCellsSameStepWithoutOverflow : ∃ t, (boot 8 [1, 4, 5, 0, 155, 100]).width ≤ 32 ∧
    (boot 8 [1, 4, 5, 0, 155, 100]).stepOverflows = false ∧
    step (boot 8 [1, 4, 5, 0, 155, 100]) = .next t := ⟨_, by decide, by decide, rfl⟩
theorem test_stepOverflows_at_the_edge : (boot 8 [1, 4, 5, 0, 156, 100]).stepOverflows = true := by decide
theorem witness_LoadedImageHasInvariant : Config.minWidth ≤ 7 ∧
    (∃ t, loadImage 7 [127] = .ok t) ∧ ∃ t, seededStart 7 [99, 0, 0] 127 127 = .ok t :=
  ⟨by decide, ⟨_, rfl⟩, ⟨_, rfl⟩⟩
theorem witness_StepKeepsInvariant : ∃ t, (boot 7 [1, 0, 0, 3]).Inv ∧ step (boot 7 [1, 0, 0, 3]) = .next t :=
  ⟨_, boot_inv (by decide) (by decide) (by decide), rfl⟩
theorem witness_RegisterWidthsSuffice : (boot 7 [1, 0, 0, 127]).Inv :=
  boot_inv (by decide) (by decide) (by decide)
theorem witness_RunEndsWithinBound : (boot 32 [1, 0, 0, 0]).state = .running := rfl
theorem witness_IpCountsCompletedInstructions : (boot 32 [1, 0, 0, 0, 99]).state = .running ∧
    (runSteps 1 (boot 32 [1, 0, 0, 0, 99])).state = .running ∧
    (runSteps 2 (boot 32 [1, 0, 0, 0, 99])).state ≠ .running := by decide
theorem witness_RunChangesFewCells : (boot 32 [1, 0, 0, 3]).state = .running := rfl
theorem witness_ResultOnlyFromHalted : (boot 32 [99]).halt.state = .halted ∧
    (boot 32 [99]).state ≠ .halted := by decide
theorem witness_CauseRegisterRule : ∃ t, step (boot 32 [7]) = .next t ∧ t.fcause ≠ (boot 32 [7]).fcause ∧
    (boot 32 [7]).Inv := ⟨_, rfl, by decide, boot_inv (by decide) (by decide) (by decide)⟩
theorem witness_ValueRegisterRule : ∃ t u, step (boot 32 [7]) = .next t ∧ t.state = .faulted ∧
    t.fcause = .invalidOpcode ∧ step (boot 32 [1, 0, 0, 4]) = .next u ∧ u.state = .faulted ∧
    u.fcause = .addressOutOfRange ∧ (boot 32 [7]).Inv ∧ (boot 32 [7]).fcause = .none :=
  ⟨_, _, rfl, by decide, by decide, rfl, by decide, by decide,
    boot_inv (by decide) (by decide) (by decide), rfl⟩
theorem witness_GoodEndHasResult : (boot 32 [1, 0, 0, 0, 99]).state = .running ∧
    (boot 32 [1, 0, 0, 0, 99]).EndsHalted := by unfold State.EndsHalted; decide
theorem witness_ReportNamesCauseAndPosition : ∃ t u v, step (boot 32 [1, 0, 0, 3]) = .next t ∧
    t.state = .running ∧ step (boot 32 [99]) = .next u ∧ u.state = .halted ∧
    step (boot 32 [7]) = .next v ∧ v.state = .faulted :=
  ⟨_, _, _, rfl, by decide, rfl, by decide, rfl, by decide⟩
theorem witness_SeededRunProtocol : [0, 0].length < 3 ∧ 3 ≤ [99, 0, 0].length ∧ [99, 0, 0].length ≤ 2 ^ 7 ∧
    (∀ v ∈ [99, 0, 0], v < 2 ^ 7) ∧ 127 < 2 ^ 7 ∧ 0 < 2 ^ 7 := by decide
/-- A template that holds 128, and seeds of 128, at a width of 7 bits. -/
theorem witness_SeededRunProtocol_refused : 3 ≤ [99, 0, 128].length ∧
    loadImage 7 [99, 0, 128] = .error .imageValueTooWide ∧ 2 ^ 7 ≤ 128 := ⟨by decide, rfl, by decide⟩
theorem witness_SeededRunProtocol_halted :
    (seededRun 7 [99, 0, 0] 127 0).map (fun t => t.state) = .ok .halted := by decide
theorem witness_SeededRunProtocol_faulted :
    (seededRun 7 [98, 0, 0] 127 0).map (fun t => t.state) = .ok .faulted := by decide
/-- Every run of `[99, 0, 0]` halts at once with 99 at address 0. -/
theorem witness_SearchReturnsFirstMatch : findPair 7 [99, 0, 0] 99 = .found 0 := by decide
theorem witness_SearchExhaustionAndAbort_abort : findPair 7 [98, 0, 0] 99 = .aborted 0 0 := by decide
/-- Every run of `[99, 0, 0]` gives 99, so no pair of the grid gives 5. -/
theorem witness_SearchExhaustionAndAbort_exhausted : ∀ n v, n < 100 → v < 100 →
    ∃ t r, seededRun 7 [99, 0, 0] n v = .ok t ∧ hostResult t = some r ∧ r ≠ 5 := by
  intro n v hn hv
  have hfit : n < 128 ∧ v < 128 := by omega
  let m := (Memory.ofImage [99, 0, 0]).seed n v
  have hread : m.read 0 = some 99 := by
    simp only [m, Memory.seed, nounAddress, verbAddress]
    rw [read_set_other (by decide), read_set_other (by decide)]
    rfl
  have hlen : m.len = 3 := rfl
  have hstart : seededStart 7 [99, 0, 0] n v = .ok (startRun 7 m) := by
    have hload : loadImage 7 [99, 0, 0] = .ok (startRun 7 (Memory.ofImage [99, 0, 0])) := rfl
    simp [seededStart, hload, hfit, m]
  have hstep : step (startRun 7 m) = .next (startRun 7 m).halt := by
    have hop : decodeOpcode (m.cell 0) = some .halt := by rw [(read_eq_some.1 hread).2]; rfl
    rw [step_of_running rfl]
    simp [hlen, hop, exec, execHalt]
  have hend : runToEnd (startRun 7 m) = (startRun 7 m).halt := by
    simp [runToEnd, stepBound, stride, hlen, runSteps, hstep]
  exact ⟨_, 99, by rw [seededRun, hstart], by rw [hend]; exact hread, by decide⟩
theorem witness_LoadedWordRunsNext : decodeWord State.reset.width 32 2 = some (.mult 0 0 0) := by decide

end Sys2Proof.Tests
end

section
/-! SUPPORT. The result of a step, said once in terms of the cells it reads, and from it the register rules of
10_state.md (R17 to R20). -/

namespace Sys2Proof.Machine

/-! ### What a step can leave -/

/-- The cell at `ip` selects ADD or MULT, and `f` is its ALU function (40_arithmetic.md R58, R59). -/
def SelectsQuad (s : State) (f : Nat → Nat → Nat) : Prop :=
  (s.mem.read s.ip = some 1 ∧ f = aluAdd s.width) ∨ (s.mem.read s.ip = some 2 ∧ f = aluMult s.width)

theorem SelectsQuad.opcode {s : State} {f : Nat → Nat → Nat} (h : SelectsQuad s f) :
    s.mem.read s.ip = some 1 ∨ s.mem.read s.ip = some 2 :=
  h.imp And.left And.left

/-- An opcode cell that can be read exists. -/
theorem SelectsQuad.ip_lt {s : State} {f : Nat → Nat → Nat} (h : SelectsQuad s f) :
    s.ip < s.mem.len := by
  rcases h.opcode with h1 | h2
  · exact (read_eq_some.1 h1).1
  · exact (read_eq_some.1 h2).1

/-- What a step of `s` can leave: three ways of fetch and decode (41_control.md R64), and three of the procedure ADD
and MULT share (40_arithmetic.md R57); of the operands that fault, the first is recorded. -/
inductive StepResult (s : State) : State → Prop
  | fetchFault (hip : s.mem.len ≤ s.ip) : StepResult s (s.raise (.addressOutOfRange s.ip))
  | invalidOpcode {v : Nat} (hread : s.mem.read s.ip = some v) (hv : v ≠ 1 ∧ v ≠ 2 ∧ v ≠ 99) :
      StepResult s (s.raise (.invalidOpcode v))
  | halt (hread : s.mem.read s.ip = some 99) : StepResult s s.halt
  | windowFault {f : Nat → Nat → Nat} (hop : SelectsQuad s f) (hwindow : s.mem.len ≤ s.ip + 3) :
      StepResult s (s.raise (.addressOutOfRange s.mem.len))
  | operandFault {f : Nat → Nat → Nat} {k x : Nat} (hop : SelectsQuad s f)
      (hwindow : s.ip + 3 < s.mem.len) (hk : 1 ≤ k ∧ k ≤ 3)
      (hbefore : ∀ j, 1 ≤ j → j < k → s.mem.cell (s.ip + j) < s.mem.len)
      (hread : s.mem.read (s.ip + k) = some x) (hx : s.mem.len ≤ x) :
      StepResult s (s.raise (.addressOutOfRange x))
  | completed {f : Nat → Nat → Nat} {a b c : Nat} (hop : SelectsQuad s f)
      (hreadA : s.mem.read (s.ip + 1) = some a) (hreadB : s.mem.read (s.ip + 2) = some b)
      (hreadC : s.mem.read (s.ip + 3) = some c)
      (ha : a < s.mem.len) (hb : b < s.mem.len) (hc : c < s.mem.len) :
      StepResult s (completed s c (f (s.mem.cell a) (s.mem.cell b)))

/-- The shared procedure of ADD and MULT, run on the three address cells of the window at `ip`. -/
theorem stepResult_of_quadExecute {s t : State} {f : Nat → Nat → Nat} (hop : SelectsQuad s f)
    (h : quadExecute f (s.mem.cell (s.ip + 1)) (s.mem.cell (s.ip + 2)) (s.mem.cell (s.ip + 3)) s =
      .next t) : StepResult s t := by
  rw [quadExecute_eq, Host.Outcome.next.injEq] at h
  subst h
  by_cases hw : s.mem.len ≤ s.ip + 3
  · rw [if_pos hw]
    exact .windowFault hop hw
  have hread : ∀ k, k ≤ 3 → s.mem.read (s.ip + k) = some (s.mem.cell (s.ip + k)) :=
    fun k hk => read_eq_some.2 ⟨by omega, rfl⟩
  have hw' : s.ip + 3 < s.mem.len := Nat.lt_of_not_le hw
  rw [if_neg hw]
  split_ifs with ha hb hc
  · exact .operandFault hop hw' (by decide) (fun j _ _ => by omega) (hread 1 (by decide)) ha
  · refine .operandFault hop hw' (by decide) (fun j _ _ => ?_) (hread 2 (by decide)) hb
    obtain rfl : j = 1 := by omega
    omega
  · refine .operandFault hop hw' (by decide) (fun j _ _ => ?_) (hread 3 (by decide)) hc
    obtain rfl | rfl : j = 1 ∨ j = 2 := by omega
    · omega
    · omega
  · exact .completed hop (hread 1 (by decide)) (hread 2 (by decide)) (hread 3 (by decide))
      (Nat.lt_of_not_le ha) (Nat.lt_of_not_le hb) (Nat.lt_of_not_le hc)

/-- Only a RUNNING state has a next state (10_state.md R18). -/
theorem running_of_step {s t : State} (h : step s = .next t) : s.state = .running := (step_cases h).1

/-- `StepResult` covers every next state. -/
theorem stepResult_of_step {s t : State} (h : step s = .next t) : StepResult s t := by
  obtain ⟨-, ⟨hip, rfl⟩ | ⟨hip, hnone, rfl⟩ | ⟨hip, hop, rfl⟩ | ⟨hip, hop, hquad⟩ | ⟨hip, hop, hquad⟩⟩ :=
    step_cases h
  · exact .fetchFault hip
  · exact .invalidOpcode (read_eq_some.2 ⟨hip, rfl⟩) (decodeOpcode_eq_none.1 hnone)
  · exact .halt (read_eq_some.2 ⟨hip, hop⟩)
  · exact stepResult_of_quadExecute (.inl ⟨read_eq_some.2 ⟨hip, hop⟩, rfl⟩) hquad
  · exact stepResult_of_quadExecute (.inr ⟨read_eq_some.2 ⟨hip, hop⟩, rfl⟩) hquad

theorem exec_has_next (i : Instr) (s : State) : ∃ t, exec i s = .next t := by
  cases i with
  | add a b c => exact ⟨_, quadExecute_eq (aluAdd s.width) a b c s⟩
  | mult a b c => exact ⟨_, quadExecute_eq (aluMult s.width) a b c s⟩
  | halt => exact ⟨s.halt, rfl⟩

theorem step_has_next {s : State} (hs : s.state = .running) : ∃ t, step s = .next t := by
  rw [step, hs]
  cases decode (fetchWindow s) with
  | error e => exact ⟨_, rfl⟩
  | ok p => exact exec_has_next p.1 s

/-! ### The run state (10_state.md R18) -/

/-- The instruction at `ip` is HALT. -/
def State.HaltsNext (s : State) : Prop := s.mem.read s.ip = some 99

/-- The instruction at `ip` is an ADD or MULT whose three address cells exist and name cells that exist. -/
def State.CompletesNext (s : State) : Prop :=
  (s.mem.read s.ip = some 1 ∨ s.mem.read s.ip = some 2) ∧
    ∃ a b c, s.mem.read (s.ip + 1) = some a ∧ s.mem.read (s.ip + 2) = some b ∧
      s.mem.read (s.ip + 3) = some c ∧ a < s.mem.len ∧ b < s.mem.len ∧ c < s.mem.len

/-- The opcode at `ip` is none of the three, or a cell the instruction at `ip` needs does not exist. -/
def State.FaultsNext (s : State) : Prop :=
  (∃ v, s.mem.read s.ip = some v ∧ v ≠ 1 ∧ v ≠ 2 ∧ v ≠ 99) ∨ s.mem.len ≤ s.ip ∨
    ((s.mem.read s.ip = some 1 ∨ s.mem.read s.ip = some 2) ∧ (s.mem.len ≤ s.ip + 3 ∨
      ∃ k x, 1 ≤ k ∧ k ≤ 3 ∧ s.mem.read (s.ip + k) = some x ∧ s.mem.len ≤ x))

theorem State.HaltsNext.not_completesNext {s : State} (h : s.HaltsNext) : ¬ s.CompletesNext := by
  have hread : s.mem.read s.ip = some 99 := h
  rintro ⟨hop, -⟩
  simp [hread] at hop

theorem State.HaltsNext.not_faultsNext {s : State} (h : s.HaltsNext) : ¬ s.FaultsNext := by
  have hread : s.mem.read s.ip = some 99 := h
  rintro (⟨v, hv, -, -, h99⟩ | hip | ⟨hop, -⟩)
  · simp [hread, h99.symm] at hv
  · simp [read_eq_none.2 hip] at hread
  · simp [hread] at hop

/-- The address cells of a completing ADD or MULT are the ones a fault would have to name. -/
theorem State.CompletesNext.not_faultsNext {s : State} (h : s.CompletesNext) : ¬ s.FaultsNext := by
  obtain ⟨hop, a, b, c, hreadA, hreadB, hreadC, ha, hb, hc⟩ := h
  have hwindow : s.ip + 3 < s.mem.len := (read_eq_some.1 hreadC).1
  rintro (⟨v, hv, h1, h2, -⟩ | hip | ⟨-, hcut | ⟨k, x, hk1, hk3, hread, hx⟩⟩)
  · simp [hv, h1, h2] at hop
  · omega
  · omega
  · obtain rfl | rfl | rfl : k = 1 ∨ k = 2 ∨ k = 3 := by omega
    · obtain rfl : a = x := Option.some.inj (hreadA.symm.trans hread)
      omega
    · obtain rfl : b = x := Option.some.inj (hreadB.symm.trans hread)
      omega
    · obtain rfl : c = x := Option.some.inj (hreadC.symm.trans hread)
      omega

/-- Each run state a step can leave has its own condition on the cells the step reads. -/
theorem StepResult.state_cases {s t : State} (hrun : s.state = .running) (h : StepResult s t) :
    (t.state = .halted ∧ s.HaltsNext) ∨ (t.state = .running ∧ s.CompletesNext) ∨
      (t.state = .faulted ∧ s.FaultsNext) := by
  cases h with
  | fetchFault hip => exact .inr (.inr ⟨rfl, .inr (.inl hip)⟩)
  | invalidOpcode hread hv => exact .inr (.inr ⟨rfl, .inl ⟨_, hread, hv⟩⟩)
  | halt hread => exact .inl ⟨rfl, hread⟩
  | windowFault hop hwindow => exact .inr (.inr ⟨rfl, .inr (.inr ⟨hop.opcode, .inl hwindow⟩)⟩)
  | operandFault hop _ hk _ hread hx =>
    exact .inr (.inr ⟨rfl, .inr (.inr ⟨hop.opcode, .inr ⟨_, _, hk.1, hk.2, hread, hx⟩⟩)⟩)
  | completed hop hreadA hreadB hreadC ha hb hc =>
    exact .inr (.inl ⟨hrun, hop.opcode, _, _, _, hreadA, hreadB, hreadC, ha, hb, hc⟩)

/-- The conditions exclude each other, so each of them decides the run state after the step. -/
theorem step_state_iff {s t : State} (h : step s = .next t) :
    (t.state = .halted ↔ s.HaltsNext) ∧ (t.state = .running ↔ s.CompletesNext) ∧
      (t.state = .faulted ↔ s.FaultsNext) := by
  rcases (stepResult_of_step h).state_cases (running_of_step h) with ⟨ht, hs⟩ | ⟨ht, hs⟩ | ⟨ht, hs⟩
  · simp [ht, hs, hs.not_completesNext, hs.not_faultsNext]
  · have hhalt : ¬ s.HaltsNext := fun hh => hh.not_completesNext hs
    simp [ht, hs, hhalt, hs.not_faultsNext]
  · have hhalt : ¬ s.HaltsNext := fun hh => hh.not_faultsNext hs
    have hcomp : ¬ s.CompletesNext := fun hc => hc.not_faultsNext hs
    simp [ht, hs, hhalt, hcomp]

/-- Settles O28: the three ends of a step exclude each other. -/
theorem runStateTransitions : Obligations.RunStateTransitions := by
  refine ⟨rfl, rfl, rfl, fun _ _ => rfl, rfl, ?_, fun _ hs => step_has_next hs,
    fun _ _ h => step_state_iff h⟩
  intro s t hs h
  simp [running_of_step h] at hs

/-! ### `ip` in a terminal state (10_state.md R17) -/

/-- HALT keeps `ip` and memory, so `ip` still stands at the 99. -/
theorem StepResult.ip_of_halted {s t : State} (hrun : s.state = .running) (h : StepResult s t)
    (ht : t.state = .halted) : t.ip = s.ip ∧ t.mem.read t.ip = some 99 := by
  cases h with
  | halt hread => exact ⟨rfl, hread⟩
  | completed => simp [hrun] at ht
  | fetchFault | invalidOpcode | windowFault | operandFault => simp at ht

/-- Every fault is one raise (60_exceptions.md R78): it keeps `ip` and memory and records a number, which the cells
at `ip` account for. -/
theorem StepResult.faulted_cases {s t : State} (hrun : s.state = .running) (h : StepResult s t)
    (ht : t.state = .faulted) :
    (∃ v, t = s.raise (.invalidOpcode v) ∧ s.mem.read s.ip = some v) ∨
    (∃ x, t = s.raise (.addressOutOfRange x) ∧ s.mem.len ≤ x ∧
      (x = s.ip ∨ s.ip < s.mem.len ∧
        (x = s.mem.len ∨ ∃ k, 1 ≤ k ∧ k ≤ 3 ∧ s.mem.read (s.ip + k) = some x))) := by
  cases h with
  | fetchFault hip => exact .inr ⟨_, rfl, hip, .inl rfl⟩
  | invalidOpcode hread hv => exact .inl ⟨_, rfl, hread⟩
  | halt => simp at ht
  | windowFault hop => exact .inr ⟨_, rfl, le_rfl, .inr ⟨hop.ip_lt, .inl rfl⟩⟩
  | operandFault hop _ hk _ hread hx =>
    exact .inr ⟨_, rfl, hx, .inr ⟨hop.ip_lt, .inr ⟨_, hk.1, hk.2, hread⟩⟩⟩
  | completed => simp [hrun] at ht

/-- Settles O29: a terminal step keeps `ip` and memory. -/
theorem terminalIpIsPosition : Obligations.TerminalIpIsPosition := by
  intro s t h
  have hrun := running_of_step h
  have hres := stepResult_of_step h
  refine ⟨hres.ip_of_halted hrun, fun ht => ?_⟩
  obtain ⟨v, rfl, hread⟩ | ⟨x, rfl, hx, hsite⟩ := hres.faulted_cases hrun ht
  · exact ⟨rfl, fun _ => hread, fun hnone => by simp [hread] at hnone⟩
  · refine ⟨rfl, fun hcause => by simp at hcause, fun hnone => ⟨rfl, ?_⟩⟩
    have hip : s.mem.len ≤ s.ip := read_eq_none.1 hnone
    exact hsite.resolve_right fun hlt => by omega

/-! ### The fault registers (10_state.md R19, R20) -/

/-- The raise is the one operation of a step that writes `fcause`. -/
theorem StepResult.fcause_eq_of_not_faulted {s t : State} (h : StepResult s t)
    (ht : t.state ≠ .faulted) : t.fcause = s.fcause := by
  cases h with
  | halt | completed => rfl
  | fetchFault | invalidOpcode | windowFault | operandFault => exact absurd rfl ht

/-- Settles O33: a step that does not fault keeps `fcause`. -/
theorem causeRegisterRule : Obligations.CauseRegisterRule := by
  refine ⟨rfl, rfl, rfl, ?_, fun _ _ => rfl, ?_, ?_⟩
  · intro c
    cases c <;> decide
  · intro s t h hne
    refine ⟨running_of_step h, ?_⟩
    by_contra ht
    exact hne ((stepResult_of_step h).fcause_eq_of_not_faulted ht)
  · intro s hinv
    rw [hinv.cause_iff]
    cases s.state <;> decide

/-- Settles O34: a step into FAULTED is a raise, and the invariant bounds the number a raise records. -/
theorem valueRegisterRule : Obligations.ValueRegisterRule := by
  refine ⟨fun s t h ht => ?_, fun _ _ => rfl, fun s hinv => ⟨?_, hinv.value_zero⟩⟩
  · obtain ⟨v, rfl, hread⟩ | ⟨x, rfl, hx, hsite⟩ :=
      (stepResult_of_step h).faulted_cases (running_of_step h) ht
    · exact ⟨fun _ => hread, fun hcause => by simp at hcause⟩
    · exact ⟨fun hcause => by simp at hcause, fun _ => ⟨hx, hsite.imp_right And.right⟩⟩
  · exact lt_of_le_of_lt hinv.value_le (Nat.pow_lt_pow_right (by decide) (Nat.lt_succ_self _))

end Sys2Proof.Machine
end

section
/-! SUPPORT. Reading and writing a cell (20_memory.md R31, R32): what the fetch sees of a cell, and which cell a step
can change. -/

namespace Sys2Proof.Machine

/-! ### The fetched window, cell by cell -/

/-- The fetch lists the live cells; it stops at the end of memory, and no cell beyond the end exists
(20_memory.md R29, R39). -/
theorem getElem?_fetchCells (m : Memory) (n a k : Nat) :
    (fetchCells m a n)[k]? = if k < n then m.read (a + k) else none := by
  induction n generalizing a k with
  | zero => simp [fetchCells]
  | succ n ih =>
    by_cases hlen : m.len ≤ a
    · have hbeyond : m.read (a + k) = none := read_eq_none.2 (by omega)
      simp [fetchCells, read_eq_none.2 hlen, hbeyond]
    · have hread : m.read a = some (m.cell a) := read_eq_some.2 ⟨by omega, rfl⟩
      cases k with
      | zero => simp [fetchCells, hread]
      | succ k => simp [fetchCells, hread, ih, Nat.add_assoc, Nat.add_comm 1 k]

theorem getElem?_fetchWindow (s : State) (k : Nat) :
    (fetchWindow s)[k]? = if k < 4 then s.mem.read (s.ip + k) else none :=
  getElem?_fetchCells s.mem 4 s.ip k

/-! ### A read and a write of one cell -/

theorem memRead_eq_ok_iff_read {s : State} {a v : Nat} :
    memRead s a = .ok v ↔ s.mem.read a = some v :=
  memRead_eq_ok.trans read_eq_some.symm

theorem memWrite_of_len_le {s : State} {a : Nat} (ha : s.mem.len ≤ a) (v : Nat) :
    memWrite s a v = .error (.addressOutOfRange a) := if_pos ha

/-- Settles O4: the read's two answers, by its bounds check. -/
theorem memReadReturnsCellOrRaises : Obligations.MemReadReturnsCellOrRaises := by
  refine fun s addr => ⟨fun hlen => memRead_eq_error.2 ⟨hlen, rfl⟩, fun hlt => ?_⟩
  have hread : s.mem.read addr = some (s.mem.cell addr) := read_eq_some.2 ⟨hlt, rfl⟩
  exact ⟨_, hread, memRead_eq_ok_iff_read.2 hread⟩

/-! ### The cell a step can change -/

/-- Memory changes only where an ADD or MULT completes, and there only in the cell its third address names. -/
theorem StepResult.destination_of_read_ne {s t : State} {x : Nat} (h : StepResult s t)
    (hne : t.mem.read x ≠ s.mem.read x) :
    (s.mem.read s.ip = some 1 ∨ s.mem.read s.ip = some 2) ∧ s.mem.read (s.ip + 3) = some x := by
  cases h with
  | fetchFault | invalidOpcode | halt | windowFault | operandFault => exact absurd rfl hne
  | @completed _ _ _ c hop _ _ hreadC =>
    obtain rfl : x = c := by
      by_contra hxc
      exact hne (read_set_other hxc s.mem _)
    exact ⟨hop.opcode, hreadC⟩

/-- Settles O5: the read and the fetch of a cell are both `Memory.read`, so the laws of `Memory.set` decide what they
see, and a step sets a cell only where an ADD or MULT completes. -/
theorem memWriteChangesOneCell : Obligations.MemWriteChangesOneCell := by
  refine ⟨fun s addr v _ => ⟨fun hlen => memWrite_of_len_le hlen v, fun hlt => ?_⟩,
    fun s t x h hne => (stepResult_of_step h).destination_of_read_ne hne⟩
  have hsame : (s.mem.set addr v).read addr = some v := read_set_same hlt v
  refine ⟨{ s with mem := s.mem.set addr v }, memWrite_eq_ok.2 ⟨hlt, rfl⟩, hsame,
    memRead_eq_ok_iff_read.2 hsame, fun x hx => read_set_other hx s.mem v,
    rfl, rfl, rfl, rfl, rfl, rfl, ?_⟩
  intro k hk hat
  rw [getElem?_fetchWindow, if_pos hk, hat]
  exact hsame

end Sys2Proof.Machine
end

section
/-! SUPPORT. ADD and MULT (40_arithmetic.md): the shared procedure of R57 as one equation per check, and a step at an
ADD or MULT opcode as that procedure on the three address cells of its window. -/

namespace Sys2Proof.Machine

/-! ### The shared procedure, check by check (40_arithmetic.md R57) -/

section QuadExecute

variable {s : State} {a b c : Nat} (f : Nat → Nat → Nat)

theorem quadExecute_of_window_cut_off (hw : s.mem.len ≤ s.ip + 3) :
    quadExecute f a b c s = .next (s.raise (.addressOutOfRange s.mem.len)) := by
  rw [quadExecute_eq, if_pos hw]

theorem quadExecute_of_first_source_missing (hw : s.ip + 3 < s.mem.len) (ha : s.mem.len ≤ a) :
    quadExecute f a b c s = .next (s.raise (.addressOutOfRange a)) := by
  rw [quadExecute_eq, if_neg (Nat.not_le.2 hw), if_pos ha]

theorem quadExecute_of_second_source_missing (hw : s.ip + 3 < s.mem.len) (ha : a < s.mem.len)
    (hb : s.mem.len ≤ b) :
    quadExecute f a b c s = .next (s.raise (.addressOutOfRange b)) := by
  rw [quadExecute_eq, if_neg (Nat.not_le.2 hw), if_neg (Nat.not_le.2 ha), if_pos hb]

theorem quadExecute_of_destination_missing (hw : s.ip + 3 < s.mem.len) (ha : a < s.mem.len)
    (hb : b < s.mem.len) (hc : s.mem.len ≤ c) :
    quadExecute f a b c s = .next (s.raise (.addressOutOfRange c)) := by
  rw [quadExecute_eq, if_neg (Nat.not_le.2 hw), if_neg (Nat.not_le.2 ha), if_neg (Nat.not_le.2 hb),
    if_pos hc]

theorem quadExecute_of_all_exist {va vb : Nat} (hw : s.ip + 3 < s.mem.len)
    (hva : s.mem.read a = some va) (hvb : s.mem.read b = some vb) (hc : c < s.mem.len) :
    quadExecute f a b c s = .next (completed s c (f va vb)) := by
  obtain ⟨ha, rfl⟩ := read_eq_some.1 hva
  obtain ⟨hb, rfl⟩ := read_eq_some.1 hvb
  rw [quadExecute_eq, if_neg (Nat.not_le.2 hw), if_neg (Nat.not_le.2 ha), if_neg (Nat.not_le.2 hb),
    if_neg (Nat.not_le.2 hc)]

end QuadExecute

/-! ### A step at an ADD or MULT opcode -/

theorem step_of_selectsQuad {s : State} {f : Nat → Nat → Nat} (hs : s.state = .running)
    (hop : SelectsQuad s f) :
    step s = quadExecute f (s.mem.cell (s.ip + 1)) (s.mem.cell (s.ip + 2)) (s.mem.cell (s.ip + 3)) s := by
  rw [step_of_running hs, if_neg (Nat.not_le.2 hop.ip_lt)]
  rcases hop with ⟨hread, rfl⟩ | ⟨hread, rfl⟩
  · rw [decodeOpcode_eq_add.2 (read_eq_some.1 hread).2]
    rfl
  · rw [decodeOpcode_eq_mult.2 (read_eq_some.1 hread).2]
    rfl

/-- Where the whole window exists, the procedure runs on the numbers its three address cells hold. -/
theorem step_of_selectsQuad_of_reads {s : State} {f : Nat → Nat → Nat} {a b c : Nat}
    (hs : s.state = .running) (hop : SelectsQuad s f) (ha : s.mem.read (s.ip + 1) = some a)
    (hb : s.mem.read (s.ip + 2) = some b) (hc : s.mem.read (s.ip + 3) = some c) :
    step s = quadExecute f a b c s := by
  rw [step_of_selectsQuad hs hop, (read_eq_some.1 ha).2, (read_eq_some.1 hb).2, (read_eq_some.1 hc).2]

/-- Settles O20: the step is the shared procedure on the address cells, and each clause is one of its checks. -/
theorem quadStepFollowsProcedure : Obligations.QuadStepFollowsProcedure := by
  intro s op f hs hread hopf
  have hop : SelectsQuad s f := by
    rcases hopf with ⟨rfl, rfl⟩ | ⟨rfl, rfl⟩
    · exact .inl ⟨hread, rfl⟩
    · exact .inr ⟨hread, rfl⟩
  refine ⟨fun hw => (step_of_selectsQuad hs hop).trans (quadExecute_of_window_cut_off f hw), ?_⟩
  intro a b c hfieldA hfieldB hfieldC
  have hstep : step s = quadExecute f a b c s :=
    step_of_selectsQuad_of_reads hs hop hfieldA hfieldB hfieldC
  have hw : s.ip + 3 < s.mem.len := (read_eq_some.1 hfieldC).1
  refine ⟨fun ha => hstep.trans (quadExecute_of_first_source_missing f hw (read_eq_none.1 ha)), ?_⟩
  intro va hva
  have ha : a < s.mem.len := (read_eq_some.1 hva).1
  refine ⟨fun hb => hstep.trans (quadExecute_of_second_source_missing f hw ha (read_eq_none.1 hb)), ?_⟩
  intro vb hvb
  have hb : b < s.mem.len := (read_eq_some.1 hvb).1
  refine ⟨fun hc => hstep.trans (quadExecute_of_destination_missing f hw ha hb hc), fun hc => ?_⟩
  exact ⟨s.mem.set c (f va vb), hstep.trans (quadExecute_of_all_exist f hw hva hvb hc), rfl,
    read_set_same hc _, fun x hx => read_set_other hx s.mem _⟩

/-! ### The single-step property (40_arithmetic.md R62) -/

/-- A step at an ADD or MULT that leaves the machine RUNNING has passed every check, so it wrote the result of the
cells its addresses name to the destination. -/
theorem eq_completed_of_step_of_selectsQuad {s t : State} {f : Nat → Nat → Nat} {a b c va vb : Nat}
    (h : step s = .next t) (ht : t.state = .running) (hop : SelectsQuad s f)
    (hfieldA : s.mem.read (s.ip + 1) = some a) (hfieldB : s.mem.read (s.ip + 2) = some b)
    (hfieldC : s.mem.read (s.ip + 3) = some c) (hva : s.mem.read a = some va)
    (hvb : s.mem.read b = some vb) :
    c < s.mem.len ∧ t = completed s c (f va vb) := by
  obtain ⟨-, _, _, c', -, -, hfieldC', -, -, hc⟩ := (step_state_iff h).2.1.1 ht
  obtain rfl : c = c' := Option.some.inj (hfieldC.symm.trans hfieldC')
  have hstep := step_of_selectsQuad_of_reads (running_of_step h) hop hfieldA hfieldB hfieldC
  rw [quadExecute_of_all_exist f (read_eq_some.1 hfieldC).1 hva hvb hc, h] at hstep
  exact ⟨hc, Host.Outcome.next.inj hstep⟩

/-- Settles O21: the completed state is the state before with one cell set, for either ALU function. -/
theorem singleStepPropertyInPreState : Obligations.SingleStepPropertyInPreState := by
  intro s t a b c va vb h ht hfieldA hfieldB hfieldC hva hvb
  have hwrite : ∀ f, SelectsQuad s f →
      t.mem.read c = some (f va vb) ∧ ∀ x, x ≠ c → t.mem.read x = s.mem.read x := by
    intro f hop
    obtain ⟨hc, rfl⟩ :=
      eq_completed_of_step_of_selectsQuad h ht hop hfieldA hfieldB hfieldC hva hvb
    exact ⟨read_set_same hc _, fun x hx => read_set_other hx s.mem _⟩
  exact ⟨fun h1 => hwrite _ (.inl ⟨h1, rfl⟩), fun h2 => hwrite _ (.inr ⟨h2, rfl⟩)⟩

end Sys2Proof.Machine
end

section
/-! SUPPORT. HALT (41_control.md R67): a step at the opcode 99, and the fault registers of a machine that has not
faulted. -/

namespace Sys2Proof.Machine

/-- The opcode cell alone decides: HALT's format has no other cell (30_encoding.md R47). -/
theorem step_of_haltsNext {s : State} (hs : s.state = .running) (hop : s.HaltsNext) :
    step s = .next s.halt := by
  obtain ⟨hip, hcell⟩ := read_eq_some.1 hop
  rw [step_of_running hs, if_neg (Nat.not_le.2 hip), decodeOpcode_eq_halt.2 hcell]
  rfl

/-- A cause is recorded exactly when FAULTED, and a number only with a cause (10_state.md R19, R20). -/
theorem State.Inv.fault_registers_of_running {s : State} (hinv : s.Inv) (hs : s.state = .running) :
    s.fcause = .none ∧ s.fvalue = 0 := by
  have hcause : s.fcause = .none := hinv.cause_iff.2 (by simp [hs])
  exact ⟨hcause, hinv.value_zero hcause⟩

/-- Settles O22: the step is `State.halt`, which sets the run state and keeps every other element. -/
theorem haltStepChangesRunStateOnly : Obligations.HaltStepChangesRunStateOnly :=
  fun _ hs hread => ⟨step_of_haltsNext hs hread, fun hinv => hinv.fault_registers_of_running hs⟩

end Sys2Proof.Machine
end

section
/-! SUPPORT. The two faults (60_exceptions.md): the step that raises each, their priority (R77), what a fault leaves
unchanged (R78), and that FAULTED has no step (R79). -/

namespace Sys2Proof.Machine

/-! ### The faults of fetch and decode (R74, R75 site (i)) -/

theorem step_of_fetch_missing {s : State} (hs : s.state = .running) (hip : s.mem.len ≤ s.ip) :
    step s = .next (s.raise (.addressOutOfRange s.ip)) := by
  rw [step_of_running hs, if_pos hip]

theorem step_of_invalid_opcode {s : State} {v : Nat} (hs : s.state = .running)
    (hread : s.mem.read s.ip = some v) (hv : v ≠ 1 ∧ v ≠ 2 ∧ v ≠ 99) :
    step s = .next (s.raise (.invalidOpcode v)) := by
  obtain ⟨hip, rfl⟩ := read_eq_some.1 hread
  rw [step_of_running hs, if_neg (Nat.not_le.2 hip), decodeOpcode_eq_none.2 hv]

/-- The one fault ADD and MULT raise is AddressOutOfRange. -/
theorem fcause_of_quadExecute {f : Nat → Nat → Nat} {a b c : Nat} {s t : State}
    (h : quadExecute f a b c s = .next t) :
    t.fcause = .addressOutOfRange ∨ t.fcause = s.fcause := by
  rcases quadExecute_cases h with ⟨x, -, -, rfl⟩ | ⟨-, -, -, -, rfl⟩
  · exact .inl rfl
  · exact .inr rfl

/-- InvalidOpcode belongs to the decoder: an instruction leaves the cause or records the other one. -/
theorem fcause_of_exec {i : Instr} {s t : State} (h : exec i s = .next t) :
    t.fcause = .addressOutOfRange ∨ t.fcause = s.fcause := by
  cases i with
  | add a b c => exact fcause_of_quadExecute (f := aluAdd s.width) h
  | mult a b c => exact fcause_of_quadExecute (f := aluMult s.width) h
  | halt =>
    obtain rfl : s.halt = t := Host.Outcome.next.inj h
    exact .inr rfl

/-- Settles O23: the decoder raises InvalidOpcode on the opcode cell alone, and no instruction does. -/
theorem invalidOpcodeFaults : Obligations.InvalidOpcodeFaults := by
  refine ⟨rfl, fun s v hs hread h1 h2 h99 => step_of_invalid_opcode hs hread ⟨h1, h2, h99⟩, ?_⟩
  intro s t i h hne
  rcases fcause_of_exec h with hcause | hcause
  · simp [hcause]
  · rwa [hcause]

/-! ### The priority of the faults (R77) -/

theorem exists_selectsQuad {s : State} {op : Nat} (hread : s.mem.read s.ip = some op)
    (hop : op = 1 ∨ op = 2) : ∃ f, SelectsQuad s f := by
  rcases hop with rfl | rfl
  · exact ⟨_, .inl ⟨hread, rfl⟩⟩
  · exact ⟨_, .inr ⟨hread, rfl⟩⟩

/-- `ip` passes the end of memory only by reaching it, so a run's fetch fault reports LEN (R75 site (i)). -/
theorem State.Inv.fetch_missing {s : State} (hinv : s.Inv) (hip : s.mem.len ≤ s.ip) :
    s.ip = s.mem.len ∧ s.mem.len % 4 = 0 := by
  have heq : s.ip = s.mem.len := Nat.le_antisymm hinv.ip_le hip
  exact ⟨heq, heq ▸ hinv.ip_aligned⟩

/-- Settles O24: a step checks the fetch, then the opcode, then runs the checks of the procedure ADD and MULT share,
and the first check that fails is the fault. -/
theorem firstFaultIsReported : Obligations.FirstFaultIsReported := by
  refine ⟨rfl, fun s hs => ⟨step_of_fetch_missing hs, fun hinv => hinv.fetch_missing, ?_⟩⟩
  intro op hread
  refine ⟨fun h1 h2 h99 => step_of_invalid_opcode hs hread ⟨h1, h2, h99⟩, ?_, ?_⟩
  · rintro rfl
    exact ⟨s.halt, step_of_haltsNext hs hread, by simp⟩
  · intro hopcode
    obtain ⟨f, hop⟩ := exists_selectsQuad hread hopcode
    refine ⟨fun hw => (step_of_selectsQuad hs hop).trans (quadExecute_of_window_cut_off f hw), ?_⟩
    intro a b c hfieldA hfieldB hfieldC
    have hstep : step s = quadExecute f a b c s :=
      step_of_selectsQuad_of_reads hs hop hfieldA hfieldB hfieldC
    have hw : s.ip + 3 < s.mem.len := (read_eq_some.1 hfieldC).1
    rw [hstep]
    refine ⟨quadExecute_of_first_source_missing f hw, quadExecute_of_second_source_missing f hw,
      quadExecute_of_destination_missing f hw, fun ha hb hc => ?_⟩
    have hva : s.mem.read a = some (s.mem.cell a) := read_eq_some.2 ⟨ha, rfl⟩
    have hvb : s.mem.read b = some (s.mem.cell b) := read_eq_some.2 ⟨hb, rfl⟩
    exact ⟨_, quadExecute_of_all_exist f hw hva hvb hc, hs⟩

/-! ### Fault entry (R78) -/

/-- Settles O25: every step into FAULTED is one raise of the state before it. -/
theorem faultChangesNothingElse : Obligations.FaultChangesNothingElse := by
  intro s t h ht
  obtain ⟨v, rfl, -⟩ | ⟨x, rfl, -⟩ := (stepResult_of_step h).faulted_cases (running_of_step h) ht
  · exact ⟨.invalidOpcode, v, .inl rfl, rfl⟩
  · exact ⟨.addressOutOfRange, x, .inr rfl, rfl⟩

/-! ### FAULTED has no step (R79) -/

theorem step_of_faulted {s : State} (hs : s.state = .faulted) : step s = .fault .noStepWhenFaulted := by
  rw [step, hs]

theorem runSteps_of_faulted {s : State} (hs : s.state = .faulted) (n : Nat) : runSteps n s = s := by
  cases n with
  | zero => rfl
  | succ n => rw [runSteps, step_of_faulted hs]

theorem hostResult_of_faulted {s : State} (hs : s.state = .faulted) : hostResult s = none := by
  rw [hostResult, hs]

/-- Settles O26: a FAULTED state has no step, so a run stays in it; `startRun` writes the run state and the cause. -/
theorem faultedIsSticky : Obligations.FaultedIsSticky := by
  refine fun s hs => ⟨fun t h => ?_, runSteps_of_faulted hs, hostResult_of_faulted hs,
    fun w m => ⟨startRun_state w m, startRun_fcause w m⟩⟩
  simp [step_of_faulted hs] at h

end Sys2Proof.Machine
end

section
/-! SUPPORT. Releasing reset after a load (70_reset_and_hazards.md R91): the loaded state, and that a run from it ends
(R106). -/

namespace Sys2Proof.Machine

/-! ### The loaded state -/

/-- A loadable image puts the machine at the start of a run on it (30_encoding.md R54). -/
theorem loadImage_of_fits {w : Nat} {image : List Nat} (hlen : image.length ≤ 2 ^ w)
    (hfit : ∀ v ∈ image, v < 2 ^ w) : loadImage w image = .ok (startRun w (Memory.ofImage image)) := by
  have hall : image.all (fun v => decide (Fits w v)) = true := by simpa using hfit
  rw [loadImage, if_neg (Nat.not_lt.2 hlen), if_pos hall]

/-! ### A run ends -/

/-- The one way a step leaves the machine RUNNING is a completed ADD or MULT: its whole window exists, and `ip` moves
past it. -/
theorem StepResult.window_and_ip_of_running {s t : State} (h : StepResult s t)
    (ht : t.state = .running) :
    s.ip + 3 < s.mem.len ∧ t.ip = s.ip + 4 ∧ t.mem.len = s.mem.len := by
  cases h with
  | completed _ _ _ hreadC => exact ⟨(read_eq_some.1 hreadC).1, rfl, rfl⟩
  | fetchFault | invalidOpcode | halt | windowFault | operandFault => simp at ht

theorem runSteps_succ_of_step {s t : State} (h : step s = .next t) (n : Nat) :
    runSteps (n + 1) s = runSteps n t := by
  rw [runSteps, h]

/-- A terminal state has no step, so a run stays in it (10_state.md R18). -/
theorem runSteps_of_not_running {s : State} (hs : s.state ≠ .running) (n : Nat) :
    runSteps n s = s := by
  cases hstate : s.state with
  | running => exact absurd hstate hs
  | faulted => exact runSteps_of_faulted hstate n
  | halted =>
    cases n with
    | zero => rfl
    | succ n => rw [runSteps, step, hstate]

/-- Each step that leaves the machine RUNNING uses up a window of four cells, so `n + 1` steps end a run with fewer
than `n + 1` whole windows ahead. -/
theorem runSteps_not_running_of_len_lt {s : State} {n : Nat} (hlen : s.mem.len < s.ip + 4 * (n + 1)) :
    (runSteps (n + 1) s).state ≠ .running := by
  induction n generalizing s with
  | zero =>
    by_cases hs : s.state = .running
    · obtain ⟨t, hstep⟩ := step_has_next hs
      rw [runSteps_succ_of_step hstep]
      intro ht
      have hwindow := ((stepResult_of_step hstep).window_and_ip_of_running ht).1
      omega
    · rwa [runSteps_of_not_running hs]
  | succ n ih =>
    by_cases hs : s.state = .running
    · obtain ⟨t, hstep⟩ := step_has_next hs
      rw [runSteps_succ_of_step hstep]
      by_cases ht : t.state = .running
      · obtain ⟨-, hip, hmem⟩ := (stepResult_of_step hstep).window_and_ip_of_running ht
        exact ih (by omega)
      · rwa [runSteps_of_not_running ht]
    · rwa [runSteps_of_not_running hs]

/-- The bound of R106 is enough from any state: `ip` only shortens what is ahead. -/
theorem runToEnd_not_running (s : State) : (runToEnd s).state ≠ .running := by
  have hlen : s.mem.len < s.ip + 4 * (s.mem.len / 4 + 1) := by omega
  exact runSteps_not_running_of_len_lt hlen

/-- Settles O2: the load is `startRun` on the memory of the image, and a run from any state ends. -/
theorem loadedImageIsResetState : Obligations.LoadedImageIsResetState :=
  fun _ image hlen hfit => ⟨_, loadImage_of_fits hlen hfit, rfl, ofImage_len image, ofImage_read image,
    rfl, rfl, rfl, rfl, runToEnd_not_running _⟩

end Sys2Proof.Machine
end

section
/-! SUPPORT. The parameter search (70_reset_and_hazards.md R98): what one candidate decides, the first candidate that
does not miss, and the row-major order of the grid. -/

namespace Sys2Proof.Machine

/-! ### One candidate -/

/-- The candidate's run gives the target. -/
def HitsTarget (w : Nat) (template : List Nat) (target : Nat) (p : Nat × Nat) : Prop :=
  ∃ t, seededRun w template p.1 p.2 = .ok t ∧ hostResult t = some target

/-- The candidate's run gives a result other than the target, so the search goes on past it. -/
def MissesTarget (w : Nat) (template : List Nat) (target : Nat) (p : Nat × Nat) : Prop :=
  ∃ t r, seededRun w template p.1 p.2 = .ok t ∧ hostResult t = some r ∧ r ≠ target

section Search

variable {w : Nat} {template : List Nat} {target : Nat} {p : Nat × Nat}

theorem searchPairs_cons_of_hits (hp : HitsTarget w template target p) (rest : List (Nat × Nat)) :
    searchPairs w template target (p :: rest) = .found (encodeAnswer p.1 p.2) := by
  obtain ⟨t, hrun, hres⟩ := hp
  simp [searchPairs, hrun, hres]

theorem searchPairs_cons_of_misses (hp : MissesTarget w template target p)
    (rest : List (Nat × Nat)) :
    searchPairs w template target (p :: rest) = searchPairs w template target rest := by
  obtain ⟨t, r, hrun, hres, hne⟩ := hp
  simp [searchPairs, hrun, hres, hne]

/-- A candidate that does not miss decides the search; it decides for `found` only by a hit. -/
theorem hits_of_searchPairs_cons_eq_found {rest : List (Nat × Nat)} {n : Nat}
    (hp : ¬ MissesTarget w template target p)
    (h : searchPairs w template target (p :: rest) = .found n) :
    HitsTarget w template target p ∧ n = encodeAnswer p.1 p.2 := by
  cases hrun : seededRun w template p.1 p.2 with
  | error r => simp [searchPairs, hrun] at h
  | ok t =>
    cases hres : hostResult t with
    | none => simp [searchPairs, hrun, hres] at h
    | some r =>
      obtain rfl : r = target := by
        by_contra hne
        exact hp ⟨t, r, hrun, hres, hne⟩
      have hhit : HitsTarget w template r p := ⟨t, hrun, hres⟩
      rw [searchPairs_cons_of_hits hhit, SearchResult.found.injEq] at h
      exact ⟨hhit, h.symm⟩

/-! ### A list of candidates -/

theorem searchPairs_append_of_misses {pre : List (Nat × Nat)}
    (hpre : ∀ q ∈ pre, MissesTarget w template target q) (rest : List (Nat × Nat)) :
    searchPairs w template target (pre ++ rest) = searchPairs w template target rest := by
  induction pre with
  | nil => rfl
  | cons q pre ih =>
    obtain ⟨hq, hpre⟩ := List.forall_mem_cons.1 hpre
    exact (searchPairs_cons_of_misses hq _).trans (ih hpre)

/-- Every candidate misses, or one of them is the first that does not. -/
theorem all_miss_or_first_not_miss (w : Nat) (template : List Nat) (target : Nat)
    (ps : List (Nat × Nat)) :
    (∀ q ∈ ps, MissesTarget w template target q) ∨
      ∃ pre p post, ps = pre ++ p :: post ∧ (∀ q ∈ pre, MissesTarget w template target q) ∧
        ¬ MissesTarget w template target p := by
  induction ps with
  | nil => exact .inl (by simp)
  | cons q ps ih =>
    by_cases hq : MissesTarget w template target q
    · rcases ih with hall | ⟨pre, p, post, rfl, hpre, hp⟩
      · exact .inl (List.forall_mem_cons.2 ⟨hq, hall⟩)
      · exact .inr ⟨q :: pre, p, post, rfl, List.forall_mem_cons.2 ⟨hq, hpre⟩, hp⟩
    · exact .inr ⟨[], q, ps, rfl, by simp, hq⟩

/-- The search finds the answer of a hit that only misses precede. -/
theorem searchPairs_eq_found {ps : List (Nat × Nat)} {n : Nat} :
    searchPairs w template target ps = .found n ↔
      ∃ pre p post, ps = pre ++ p :: post ∧ (∀ q ∈ pre, MissesTarget w template target q) ∧
        HitsTarget w template target p ∧ n = encodeAnswer p.1 p.2 := by
  constructor
  · intro h
    obtain hall | ⟨pre, p, post, rfl, hpre, hp⟩ := all_miss_or_first_not_miss w template target ps
    · have hend := searchPairs_append_of_misses hall []
      rw [List.append_nil, h] at hend
      simp [searchPairs] at hend
    · rw [searchPairs_append_of_misses hpre] at h
      exact ⟨pre, p, post, rfl, hpre, hits_of_searchPairs_cons_eq_found hp h⟩
  · rintro ⟨pre, p, post, rfl, hpre, hp, rfl⟩
    rw [searchPairs_append_of_misses hpre, searchPairs_cons_of_hits hp]

end Search

/-! ### The grid in row-major order -/

/-- `p` is scanned before `q`: the noun is outer, the verb inner. -/
def RowMajorBefore (p q : Nat × Nat) : Prop := p.1 < q.1 ∨ (p.1 = q.1 ∧ p.2 < q.2)

theorem RowMajorBefore.asymm {p q : Nat × Nat} (h : RowMajorBefore p q) : ¬ RowMajorBefore q p := by
  unfold RowMajorBefore at *
  omega

theorem RowMajorBefore.irrefl (p : Nat × Nat) : ¬ RowMajorBefore p p := fun h => h.asymm h

theorem mem_searchGrid {p : Nat × Nat} : p ∈ searchGrid ↔ p.1 < 100 ∧ p.2 < 100 := by
  obtain ⟨noun, verb⟩ := p
  simp [searchGrid, gridSide]

theorem searchGrid_rowMajor : searchGrid.Pairwise RowMajorBefore := by
  refine List.pairwise_flatMap.2 ⟨fun noun _ => ?_, ?_⟩
  · exact List.pairwise_map.2 (List.pairwise_lt_range.imp fun hlt => .inr ⟨rfl, hlt⟩)
  · refine List.pairwise_lt_range.imp fun hlt p hp q hq => .inl ?_
    obtain ⟨_, -, rfl⟩ := List.mem_map.1 hp
    obtain ⟨_, -, rfl⟩ := List.mem_map.1 hq
    exact hlt

/-- What stands before a candidate in the grid is what row-major order puts before it. -/
theorem mem_before_of_searchGrid_eq {pre post : List (Nat × Nat)} {p q : Nat × Nat}
    (hgrid : searchGrid = pre ++ p :: post) :
    q ∈ pre ↔ q ∈ searchGrid ∧ RowMajorBefore q p := by
  obtain ⟨-, htail, hcross⟩ := List.pairwise_append.1 (hgrid ▸ searchGrid_rowMajor)
  constructor
  · exact fun hq => ⟨by simp [hgrid, hq], hcross q hq p List.mem_cons_self⟩
  · rintro ⟨hq, hbefore⟩
    rw [hgrid, List.mem_append, List.mem_cons] at hq
    rcases hq with hpre | rfl | hpost
    · exact hpre
    · exact absurd hbefore (RowMajorBefore.irrefl q)
    · exact absurd hbefore ((List.pairwise_cons.1 htail).1 q hpost).asymm

/-- Settles O50: the search stops at a hit whose predecessors in the grid miss, and those are the pairs before it in
row-major order. -/
theorem searchReturnsFirstMatch : Obligations.SearchReturnsFirstMatch := by
  intro w template target n
  rw [findPair, searchPairs_eq_found]
  constructor
  · rintro ⟨pre, ⟨noun, verb⟩, post, hgrid, hpre, hhit, rfl⟩
    have hmem : (noun, verb) ∈ searchGrid := by simp [hgrid]
    obtain ⟨hnoun, hverb⟩ := mem_searchGrid.1 hmem
    refine ⟨noun, verb, hnoun, hverb, rfl, hhit, fun noun' verb' hnoun' hverb' hbefore => ?_⟩
    exact hpre (noun', verb')
      ((mem_before_of_searchGrid_eq hgrid).2 ⟨mem_searchGrid.2 ⟨hnoun', hverb'⟩, hbefore⟩)
  · rintro ⟨noun, verb, hnoun, hverb, rfl, hhit, hmiss⟩
    have hmem : (noun, verb) ∈ searchGrid := mem_searchGrid.2 ⟨hnoun, hverb⟩
    obtain ⟨pre, post, hgrid⟩ := List.append_of_mem hmem
    refine ⟨pre, (noun, verb), post, hgrid, fun q hq => ?_, hhit, rfl⟩
    obtain ⟨hq, hbefore⟩ := (mem_before_of_searchGrid_eq hgrid).1 hq
    obtain ⟨hnoun', hverb'⟩ := mem_searchGrid.1 hq
    exact hmiss q.1 q.2 hnoun' hverb' hbefore

end Sys2Proof.Machine
end

section
/-! SUPPORT. Reading the decoder's answer off the cells (30_encoding.md R46, R47, R50 to R53), the packing of an
instruction's cells into one number, and the step at a window that decodes. -/

namespace Sys2Proof

/-! ### The three address cells of format Q -/

section QuadFields

variable {make : Nat → Nat → Nat → Instr} {cells : List Nat}

theorem quadFields_eq_ok {i : Instr} {rest : List Nat} :
    quadFields make cells = .ok (i, rest) ↔ ∃ a b c, cells = a :: b :: c :: rest ∧ i = make a b c := by
  rcases cells with _ | ⟨a, _ | ⟨b, _ | ⟨c, tail⟩⟩⟩
  · simp [quadFields]
  · simp [quadFields]
  · simp [quadFields]
  · simp only [quadFields, Except.ok.injEq, Prod.mk.injEq, List.cons.injEq]
    constructor
    · rintro ⟨rfl, rfl⟩
      exact ⟨a, b, c, ⟨rfl, rfl, rfl, rfl⟩, rfl⟩
    · rintro ⟨_, _, _, ⟨rfl, rfl, rfl, rfl⟩, rfl⟩
      exact ⟨rfl, rfl⟩

theorem quadFields_eq_error {e : DecodeError} :
    quadFields make cells = .error e ↔ cells.length < 3 ∧ e = .windowCutOff := by
  rcases cells with _ | ⟨a, _ | ⟨b, _ | ⟨c, tail⟩⟩⟩
  · simp [quadFields, eq_comm]
  · simp [quadFields, eq_comm]
  · simp [quadFields, eq_comm]
  · simp [quadFields]

end QuadFields

/-! ### The operation the opcode cell selects -/

section Opcode

variable {v : Nat} (rest : List Nat)

theorem decode_of_add (hv : decodeOpcode v = some .add) :
    decode (v :: rest) = quadFields .add rest := by
  rw [decode, hv]

theorem decode_of_mult (hv : decodeOpcode v = some .mult) :
    decode (v :: rest) = quadFields .mult rest := by
  rw [decode, hv]

theorem decode_of_halt (hv : decodeOpcode v = some .halt) : decode (v :: rest) = .ok (.halt, rest) := by
  rw [decode, hv]

theorem decode_of_invalid (hv : decodeOpcode v = none) :
    decode (v :: rest) = .error (.invalidOpcode v) := by
  rw [decode, hv]

end Opcode

/-! ### Decoding and encoding -/

theorem decode_encode_append (i : Instr) (rest : List Nat) :
    decode (encode i ++ rest) = .ok (i, rest) := by
  cases i <;> rfl

theorem eq_encode_append_of_decode {cells rest : List Nat} {i : Instr}
    (h : decode cells = .ok (i, rest)) : cells = encode i ++ rest := by
  rcases cells with _ | ⟨v, tail⟩
  · simp [decode] at h
  · cases hv : decodeOpcode v with
    | none => simp [decode_of_invalid tail hv] at h
    | some op =>
      cases op with
      | add =>
        rw [decode_of_add tail hv] at h
        obtain ⟨a, b, c, rfl, rfl⟩ := quadFields_eq_ok.1 h
        rw [decodeOpcode_eq_add.1 hv]
        rfl
      | mult =>
        rw [decode_of_mult tail hv] at h
        obtain ⟨a, b, c, rfl, rfl⟩ := quadFields_eq_ok.1 h
        rw [decodeOpcode_eq_mult.1 hv]
        rfl
      | halt =>
        rw [decode_of_halt tail hv] at h
        obtain ⟨rfl, rfl⟩ : Instr.halt = i ∧ tail = rest := by simpa using h
        rw [decodeOpcode_eq_halt.1 hv]
        rfl

/-- Settles O8: encoding is one case per instruction, decoding one case per opcode. -/
theorem decodedCellsAreTheEncoding : Obligations.DecodedCellsAreTheEncoding := fun _ rest i =>
  ⟨eq_encode_append_of_decode, fun h => h ▸ decode_encode_append i rest⟩

/-- A first cell is followed by no instruction for one of two reasons. -/
theorem decode_cons_eq_error {v : Nat} {rest : List Nat} {e : DecodeError} :
    decode (v :: rest) = .error e ↔
      (v ≠ 1 ∧ v ≠ 2 ∧ v ≠ 99) ∧ e = .invalidOpcode v ∨
        (v = 1 ∨ v = 2) ∧ rest.length < 3 ∧ e = .windowCutOff := by
  cases hv : decodeOpcode v with
  | none =>
    have hne := decodeOpcode_eq_none.1 hv
    simp [decode_of_invalid rest hv, hne, eq_comm]
  | some op =>
    cases op with
    | add =>
      obtain rfl := decodeOpcode_eq_add.1 hv
      simp [decode_of_add rest hv, quadFields_eq_error]
    | mult =>
      obtain rfl := decodeOpcode_eq_mult.1 hv
      simp [decode_of_mult rest hv, quadFields_eq_error]
    | halt =>
      obtain rfl := decodeOpcode_eq_halt.1 hv
      simp [decode_of_halt rest hv]

/-- Settles O9: the empty list, and the two errors after a first cell. -/
theorem rejectedCellsAreNamed : Obligations.RejectedCellsAreNamed := by
  rintro (_ | ⟨op, rest⟩) v
  · simp [decode]
  · refine ⟨by simp [decode_cons_eq_error], ?_, ?_⟩
    · rw [decode_cons_eq_error]
      constructor
      · rintro (⟨hne, he⟩ | ⟨-, -, he⟩)
        · obtain rfl : v = op := DecodeError.invalidOpcode.inj he
          exact ⟨rest, rfl, hne⟩
        · simp at he
      · rintro ⟨_, heq, hne⟩
        obtain ⟨rfl, -⟩ := List.cons.inj heq
        exact .inl ⟨hne, rfl⟩
    · simp [decode_cons_eq_error]

/-- Settles O10: the decoder run on each list of cells and each packed word. -/
theorem writtenOutCellsDecode : Obligations.WrittenOutCellsDecode := by
  unfold Obligations.WrittenOutCellsDecode
  decide

/-! ### Packing an instruction's cells into one number -/

theorem wordOfCells_lt {w : Nat} {cells : List Nat} (hfit : ∀ v ∈ cells, Fits w v) :
    wordOfCells w cells < 2 ^ (w * cells.length) := by
  induction cells with
  | nil => simp [wordOfCells]
  | cons v rest ih =>
    obtain ⟨hv, hrest⟩ := List.forall_mem_cons.1 hfit
    have hword : wordOfCells w rest + 1 ≤ 2 ^ (w * rest.length) := ih hrest
    calc wordOfCells w (v :: rest) < 2 ^ w + 2 ^ w * wordOfCells w rest := Nat.add_lt_add_right hv _
      _ = 2 ^ w * (wordOfCells w rest + 1) := by ring
      _ ≤ 2 ^ w * 2 ^ (w * rest.length) := Nat.mul_le_mul_left _ hword
      _ = 2 ^ (w * (v :: rest).length) := by rw [List.length_cons, ← pow_add]; ring_nf

theorem cellsOfWord_zero (w n : Nat) : cellsOfWord w n 0 = List.replicate n 0 := by
  induction n with
  | zero => rfl
  | succ n ih => simp [cellsOfWord, ih, List.replicate_succ]

/-- Cells that fit come back out of their packing, and cells without bits read as 0 (log 10). -/
theorem cellsOfWord_wordOfCells {w : Nat} {cells : List Nat} (hfit : ∀ v ∈ cells, Fits w v) (n : Nat) :
    cellsOfWord w (cells.length + n) (wordOfCells w cells) = cells ++ List.replicate n 0 := by
  induction cells with
  | nil => simpa [wordOfCells] using cellsOfWord_zero w n
  | cons v rest ih =>
    obtain ⟨hv, hrest⟩ := List.forall_mem_cons.1 hfit
    have hlow : wordOfCells w (v :: rest) % 2 ^ w = v := by
      rw [wordOfCells, Nat.add_mul_mod_self_left, Nat.mod_eq_of_lt hv]
    have hhigh : wordOfCells w (v :: rest) / 2 ^ w = wordOfCells w rest := by
      rw [wordOfCells, Nat.add_mul_div_left _ _ (Nat.two_pow_pos w), Nat.div_eq_of_lt hv, Nat.zero_add]
    rw [List.length_cons, Nat.add_right_comm, cellsOfWord_succ, hlow, hhigh, ih hrest]
    rfl

theorem encode_length_le_stride (i : Instr) : (encode i).length ≤ stride := by
  cases i <;> simp [encode, stride]

theorem encodedCellsFit (i : Instr) : Laws.EncodedCellsFit.Statement i := by
  cases i with
  | add a b c => exact Laws.EncodedCellsFit.add a b c
  | mult a b c => exact Laws.EncodedCellsFit.mult a b c
  | halt => exact Laws.EncodedCellsFit.halt

/-- Settles O11: unpacking gives the instruction's cells, then cells that read as 0, and the decoder leaves those. -/
theorem packedEncodingRoundTrip : Obligations.PackedEncodingRoundTrip := by
  intro w i hw hwf
  have hfit : ∀ v ∈ encode i, Fits w v := encodedCellsFit i w hw hwf
  obtain ⟨n, hn⟩ := Nat.exists_eq_add_of_le (encode_length_le_stride i)
  rw [decodeWord, encodeWord, Nat.mod_eq_of_lt (wordOfCells_lt hfit), hn, cellsOfWord_wordOfCells hfit,
    decode_encode_append]

end Sys2Proof

namespace Sys2Proof.Machine

/-! ### The window at `ip` -/

/-- Settles O19: the window cell by cell. -/
theorem fetchReadsLiveWindow : Obligations.FetchReadsLiveWindow := getElem?_fetchWindow

theorem fetchWindow_of_read {s : State} {v : Nat} (hread : s.mem.read s.ip = some v) :
    fetchWindow s = v :: fetchCells s.mem (s.ip + 1) 3 := by
  rw [fetchWindow, stride, fetchCells, hread]

/-- Settles O7: the opcode cell heads the window, and `decode` follows `decodeOpcode` on it. -/
theorem decoderComparesWholeCell : Obligations.DecoderComparesWholeCell := by
  refine ⟨rfl, rfl, rfl, fun v h1 h2 h99 => decodeOpcode_eq_none.2 ⟨h1, h2, h99⟩, fun s v hread => ?_⟩
  refine ⟨_, fetchWindow_of_read hread, decode_of_invalid _, decode_of_halt _, ?_, ?_⟩
  · intro hop hlen
    have hv : v = 1 ∨ v = 2 := hop.imp decodeOpcode_eq_add.1 decodeOpcode_eq_mult.1
    exact decode_cons_eq_error.2 (.inr ⟨hv, hlen, rfl⟩)
  · intro a b c tail hrest
    rw [hrest]
    exact ⟨decode_of_add _, decode_of_mult _⟩

/-! ### The step at a window that decodes -/

theorem step_of_decode {s : State} {i : Instr} {rest : List Nat} (hs : s.state = .running)
    (hdecode : decode (fetchWindow s) = .ok (i, rest)) : step s = exec i s := by
  rw [step, hs]
  simp only [hdecode]

/-- Settles O18: the one arm of `step` that a decoded window takes. -/
theorem stepRunsDecodedInstruction : Obligations.StepRunsDecodedInstruction :=
  fun _ _ _ => step_of_decode

theorem exists_decode_of_decodeWord {w nbits x : Nat} {i : Instr} (h : decodeWord w nbits x = some i) :
    ∃ rest, decode (cellsOfWord w stride (x % 2 ^ nbits)) = .ok (i, rest) := by
  unfold decodeWord at h
  cases hd : decode (cellsOfWord w stride (x % 2 ^ nbits)) with
  | error e => simp [hd] at h
  | ok p =>
    obtain rfl : p.1 = i := by simpa [hd] using h
    exact ⟨p.2, rfl⟩

theorem place_read_at {vs : List Nat} {k : Nat} (hk : k < vs.length) (m : Memory) (a : Nat) :
    (m.place a vs).read (a + k) = vs[k]? := by
  have hne : vs ≠ [] := List.ne_nil_of_length_pos (by omega)
  have hget : vs[k]? = some vs[k] := List.getElem?_eq_getElem hk
  rw [hget, read_eq_some, place_len, if_neg hne]
  exact ⟨by omega, place_cell_at hget⟩

theorem fetchWindow_withFetchWord (s : State) (nbits x : Nat) :
    fetchWindow (s.withFetchWord nbits x) = cellsOfWord s.width stride (x % 2 ^ nbits) := by
  have hlen : (cellsOfWord s.width stride (x % 2 ^ nbits)).length = 4 := cellsOfWord_length _ _ _
  refine List.ext_getElem? fun k => ?_
  rw [getElem?_fetchWindow]
  split_ifs with hk
  · exact place_read_at (hlen ▸ hk) s.mem s.ip
  · exact (List.getElem?_eq_none (by omega)).symm

/-- Settles O52: the step fetches the word's cells back. -/
theorem loadedWordRunsNext : Obligations.LoadedWordRunsNext := by
  intro s nbits x i hword
  obtain ⟨rest, hdecode⟩ := exists_decode_of_decodeWord hword
  exact step_of_decode rfl ((fetchWindow_withFetchWord s nbits x).symm ▸ hdecode)

end Sys2Proof.Machine
end

section
/-! SUPPORT. The canonical form of memory (log 4): the cells that exist decide what is listed. -/

namespace Sys2Proof.Machine

theorem lookupCell_eq_of_mem {cells : List (Nat × Nat)} (hrise : cells.Pairwise (fun p q => p.1 < q.1))
    {p : Nat × Nat} (hp : p ∈ cells) : lookupCell p.1 cells = p.2 := by
  induction cells with
  | nil => simp at hp
  | cons q rest ih =>
    obtain ⟨hq, hrest⟩ := List.pairwise_cons.1 hrise
    rcases List.mem_cons.1 hp with rfl | hp'
    · simp [lookupCell]
    · rw [lookupCell, if_neg (hq p hp').ne, ih hrest hp']

theorem mem_of_lookupCell_ne {cells : List (Nat × Nat)} {a : Nat}
    (hne : lookupCell a cells ≠ unlistedCell) : (a, lookupCell a cells) ∈ cells := by
  induction cells with
  | nil => exact absurd rfl hne
  | cons q rest ih =>
    by_cases hq : q.1 = a
    · simp [lookupCell, ← hq]
    · rw [lookupCell, if_neg hq] at hne ⊢
      exact List.mem_cons_of_mem _ (ih hne)

/-- A canonical memory lists exactly the cells that exist and do not hold what an unlisted cell holds. -/
theorem mem_cells_iff_read {w : Nat} {m : Memory} (hm : m.wf w) (p : Nat × Nat) :
    p ∈ m.cells ↔ m.read p.1 = some p.2 ∧ p.2 ≠ unlistedCell := by
  obtain ⟨-, hrise, hall⟩ := hm
  rw [read_eq_some]
  constructor
  · intro hp
    obtain ⟨hlt, hne, -⟩ := hall p hp
    exact ⟨⟨hlt, lookupCell_eq_of_mem hrise hp⟩, hne⟩
  · rintro ⟨⟨-, hcell⟩, hne⟩
    have hmem : (p.1, m.cell p.1) ∈ m.cells :=
      mem_of_lookupCell_ne (show m.cell p.1 ≠ unlistedCell from hcell ▸ hne)
    rwa [hcell] at hmem

theorem len_le_of_read_eq {m n : Memory} (hread : ∀ a, m.read a = n.read a) : m.len ≤ n.len :=
  read_eq_none.1 ((hread n.len).trans (read_eq_none.2 le_rfl))

/-- Lists that rise and have the same members are the same list. -/
theorem eq_of_rising_of_mem_iff {ps qs : List (Nat × Nat)} (hps : ps.Pairwise (fun p q => p.1 < q.1))
    (hqs : qs.Pairwise (fun p q => p.1 < q.1)) (hmem : ∀ p, p ∈ ps ↔ p ∈ qs) : ps = qs := by
  have hnodup : ∀ {l : List (Nat × Nat)}, l.Pairwise (fun p q => p.1 < q.1) → l.Nodup :=
    fun hl => hl.imp fun hlt heq => hlt.ne (congrArg Prod.fst heq)
  have hperm : ps.Perm qs := (List.perm_ext_iff_of_nodup (hnodup hps) (hnodup hqs)).2 hmem
  exact hperm.eq_of_pairwise (fun _ _ _ _ hlt hgt => absurd hlt hgt.asymm) hps hqs

/-- Settles O6: reads fix LEN and which cells are listed, and the list rises. -/
theorem equalReadsMeanEqualMemories : Obligations.EqualReadsMeanEqualMemories := by
  intro w m n hm hn hread
  have hlen : m.len = n.len :=
    Nat.le_antisymm (len_le_of_read_eq hread) (len_le_of_read_eq fun a => (hread a).symm)
  have hcells : m.cells = n.cells := eq_of_rising_of_mem_iff hm.2.1 hn.2.1 fun p => by
    rw [mem_cells_iff_read hm, mem_cells_iff_read hn, hread]
  cases m
  cases n
  exact congrArg₂ Memory.mk hlen hcells

end Sys2Proof.Machine
end

section
/-! SUPPORT. Reset, the load and the seeding of a template (10_state.md R25, 30_encoding.md R54,
70_reset_and_hazards.md R96): what each refuses, and the state each starts from. -/

namespace Sys2Proof.Machine

/-- Settles O1: the fields of `State.reset`, and a memory of no cells. -/
theorem resetStateValues : Obligations.ResetStateValues :=
  ⟨rfl, rfl, rfl, rfl, rfl, rfl, fun _ => read_eq_none.2 (Nat.zero_le _)⟩

/-! ### Loading an image -/

theorem loadImage_of_too_long {w : Nat} {image : List Nat} (hlen : 2 ^ w < image.length) :
    loadImage w image = .error .imageTooLong := if_pos hlen

theorem loadImage_of_too_wide {w : Nat} {image : List Nat} (hlen : image.length ≤ 2 ^ w)
    (hwide : ∃ v ∈ image, 2 ^ w ≤ v) : loadImage w image = .error .imageValueTooWide := by
  have hall : ¬ image.all (fun v => decide (Fits w v)) = true := by simpa using hwide
  rw [loadImage, if_neg (Nat.not_lt.2 hlen), if_neg hall]

/-- Settles O3: the load checks the length, then every number. -/
theorem unloadableImageIsRefused : Obligations.UnloadableImageIsRefused :=
  fun _ _ => ⟨loadImage_of_too_long, loadImage_of_too_wide⟩

theorem loadImage_eq_ok {w : Nat} {image : List Nat} {t : State} :
    loadImage w image = .ok t ↔ image.length ≤ 2 ^ w ∧ (∀ v ∈ image, v < 2 ^ w) ∧
      t = startRun w (Memory.ofImage image) := by
  constructor
  · intro h
    have hlen : image.length ≤ 2 ^ w := by
      by_contra hlong
      simp [loadImage_of_too_long (Nat.lt_of_not_le hlong)] at h
    have hfit : ∀ v ∈ image, v < 2 ^ w := by
      by_contra hwide
      push Not at hwide
      simp [loadImage_of_too_wide hlen hwide] at h
    rw [loadImage_of_fits hlen hfit, Except.ok.injEq] at h
    exact ⟨hlen, hfit, h.symm⟩
  · rintro ⟨hlen, hfit, rfl⟩
    exact loadImage_of_fits hlen hfit

/-! ### Seeding (70_reset_and_hazards.md R96) -/

section Seeding

variable {w : Nat} {template : List Nat} {noun verb : Nat}

theorem seededStart_of_short (hshort : template.length < 3) :
    seededStart w template noun verb = .error .seedMemoryTooShort := if_pos hshort

theorem seededStart_of_load_refused (hlong : 3 ≤ template.length) {r : Refusal}
    (hload : loadImage w template = .error r) : seededStart w template noun verb = .error r := by
  rw [seededStart, if_neg (Nat.not_lt.2 hlong), hload]

/-- On a template that loads, only the seeds decide. -/
theorem seededStart_of_loadable (hlong : 3 ≤ template.length) (hlen : template.length ≤ 2 ^ w)
    (hfit : ∀ v ∈ template, v < 2 ^ w) :
    seededStart w template noun verb =
      if noun < 2 ^ w ∧ verb < 2 ^ w then
        .ok (startRun w ((Memory.ofImage template).seed noun verb))
      else .error .seedTooWide := by
  rw [seededStart, if_neg (Nat.not_lt.2 hlong), loadImage_of_fits hlen hfit]
  rfl

theorem seededStart_eq_ok {t : State} (h : seededStart w template noun verb = .ok t) :
    3 ≤ template.length ∧ template.length ≤ 2 ^ w ∧ (∀ v ∈ template, v < 2 ^ w) ∧
      (noun < 2 ^ w ∧ verb < 2 ^ w) ∧ t = startRun w ((Memory.ofImage template).seed noun verb) := by
  have hlong : 3 ≤ template.length := by
    by_contra hshort
    simp [seededStart_of_short (Nat.lt_of_not_le hshort)] at h
  cases hload : loadImage w template with
  | error r => simp [seededStart_of_load_refused hlong hload] at h
  | ok s =>
    obtain ⟨hlen, hfit, -⟩ := loadImage_eq_ok.1 hload
    rw [seededStart_of_loadable hlong hlen hfit] at h
    split_ifs at h with hseeds
    exact ⟨hlong, hlen, hfit, hseeds, (Except.ok.inj h).symm⟩

theorem seed_wf {m : Memory} (hm : m.wf w) (hlen : 3 ≤ m.len) (hnoun : noun < 2 ^ w)
    (hverb : verb < 2 ^ w) : (m.seed noun verb).wf w :=
  set_wf (set_wf hm (show 1 < m.len by omega) hnoun) (show 2 < m.len by omega) hverb

end Seeding

end Sys2Proof.Machine
end

section
/-! SUPPORT. The invariant `State.Inv` (10_state.md R16, R19, R20, R24): the operations of a step keep it, and every
start of a run has it. -/

namespace Sys2Proof.Machine

/-! ### Numbers that fit -/

theorem read_fits {w : Nat} {m : Memory} {a v : Nat} (hm : m.wf w) (hread : m.read a = some v) :
    Fits w v :=
  (read_eq_some.1 hread).2 ▸ cell_fits hm a

/-- Both ALU functions narrow their result to a cell (40_arithmetic.md R60). -/
theorem SelectsQuad.result_fits {s : State} {f : Nat → Nat → Nat} (hop : SelectsQuad s f) (x y : Nat) :
    Fits s.width (f x y) := by
  rcases hop with ⟨-, rfl⟩ | ⟨-, rfl⟩
  · exact narrow_fits _ _
  · exact narrow_fits _ _

theorem Raise.cause_ne_none (r : Raise) : r.cause ≠ .none := by
  cases r <;> simp

/-! ### The operations of a step -/

theorem State.Inv.raise {s : State} {r : Raise} (hinv : s.Inv) (hr : r.info ≤ 2 ^ s.width) :
    (s.raise r).Inv where
  width_ge := hinv.width_ge
  mem_wf := hinv.mem_wf
  ip_aligned := hinv.ip_aligned
  ip_le := hinv.ip_le
  cause_iff := by simp [r.cause_ne_none]
  value_zero hnone := absurd hnone r.cause_ne_none
  value_le := hr

theorem State.Inv.halt {s : State} (hinv : s.Inv) (hs : s.state = .running) : s.halt.Inv where
  width_ge := hinv.width_ge
  mem_wf := hinv.mem_wf
  ip_aligned := hinv.ip_aligned
  ip_le := hinv.ip_le
  cause_iff := by simp [hinv.fault_registers_of_running hs]
  value_zero := hinv.value_zero
  value_le := hinv.value_le

theorem State.Inv.completed {s : State} {c v : Nat} (hinv : s.Inv) (hwindow : s.ip + 3 < s.mem.len)
    (hc : c < s.mem.len) (hv : Fits s.width v) : (completed s c v).Inv where
  width_ge := hinv.width_ge
  mem_wf := set_wf hinv.mem_wf hc hv
  ip_aligned := (Nat.add_mod_right s.ip 4).trans hinv.ip_aligned
  ip_le := hwindow
  cause_iff := hinv.cause_iff
  value_zero := hinv.value_zero
  value_le := hinv.value_le

/-- Settles O41: a raise records LEN, `ip` or the value of a cell, and a completed instruction writes a narrowed
result and moves `ip` past a window that exists. -/
theorem stepKeepsInvariant : Obligations.StepKeepsInvariant := by
  intro s t hinv h
  have hlen : s.mem.len ≤ 2 ^ s.width := hinv.mem_wf.1
  cases stepResult_of_step h with
  | fetchFault hip => exact hinv.raise (hinv.ip_le.trans hlen)
  | invalidOpcode hread hv => exact hinv.raise (read_fits hinv.mem_wf hread).le
  | halt hread => exact hinv.halt (running_of_step h)
  | windowFault hop hwindow => exact hinv.raise hlen
  | operandFault hop hwindow hk hbefore hread hx =>
    exact hinv.raise (read_fits hinv.mem_wf hread).le
  | completed hop hreadA hreadB hreadC ha hb hc =>
    exact hinv.completed (read_eq_some.1 hreadC).1 hc (hop.result_fits _ _)

/-! ### The start of a run -/

theorem startRun_inv {w : Nat} {m : Memory} (hw : Config.minWidth ≤ w) (hm : m.wf w) :
    (startRun w m).Inv where
  width_ge := hw
  mem_wf := hm
  ip_aligned := rfl
  ip_le := Nat.zero_le _
  cause_iff := by simp
  value_zero _ := rfl
  value_le := Nat.zero_le _

/-- Settles O39: reset is a start on the empty memory. -/
theorem resetHasInvariant : Obligations.ResetHasInvariant := startRun_inv (by decide) reset_mem_wf

/-- Settles O40: both starts are `startRun` on a memory in canonical form. -/
theorem loadedImageHasInvariant : Obligations.LoadedImageHasInvariant := by
  rintro w image noun verb t hw (h | h)
  · obtain ⟨hlen, hfit, rfl⟩ := loadImage_eq_ok.1 h
    exact startRun_inv hw (ofImage_wf hlen hfit)
  · obtain ⟨hlong, hlen, hfit, ⟨hnoun, hverb⟩, rfl⟩ := seededStart_eq_ok h
    exact startRun_inv hw (seed_wf (ofImage_wf hlen hfit) (ofImage_len image ▸ hlong) hnoun hverb)

/-! ### Register widths -/

/-- Settles O42: `ip` and `fvalue` are at most `2^W`, and the three cells after `ip` are fewer than `2^W`. -/
theorem registerWidthsSuffice : Obligations.RegisterWidthsSuffice := by
  intro s hinv
  have hip := hinv.ip_le
  have hlen : s.mem.len ≤ 2 ^ s.width := hinv.mem_wf.1
  have hvalue := hinv.value_le
  have hthree : Fits s.width 3 := Laws.fits_of_lt_128 hinv.width_ge (by decide)
  have hdouble : 2 ^ (s.width + 1) = 2 * 2 ^ s.width := Nat.pow_succ'
  have haligned : s.ip % 4 = 0 := hinv.ip_aligned
  refine ⟨?_, ?_, ?_⟩
  · omega
  · omega
  · omega

end Sys2Proof.Machine
end

section
/-! SUPPORT. The exact results of the ALU functions (40_arithmetic.md R61). -/

namespace Sys2Proof.Machine

/-- A sum of two cells passes `2^W` at most once. -/
theorem aluAdd_eq_ite {w x y : Nat} (hx : x < 2 ^ w) (hy : y < 2 ^ w) :
    aluAdd w x y = if x + y < 2 ^ w then x + y else x + y - 2 ^ w := by
  split_ifs with h
  · exact narrow_of_fits h
  · rw [aluAdd, narrow, Nat.mod_eq_sub_mod (Nat.le_of_not_lt h), Nat.mod_eq_of_lt (by omega)]

theorem aluAdd_comm (w x y : Nat) : aluAdd w x y = aluAdd w y x := by
  rw [aluAdd, aluAdd, Nat.add_comm]

theorem aluMult_comm (w x y : Nat) : aluMult w x y = aluMult w y x := by
  rw [aluMult, aluMult, Nat.mul_comm]

theorem mul_eq_add_aluMult (w x y : Nat) : x * y = x * y / 2 ^ w * 2 ^ w + aluMult w x y :=
  (Nat.div_add_mod' _ _).symm

/-- `(2^W - 1)^2` is `2^W * (2^W - 2) + 1`. -/
theorem aluMult_max_max {w : Nat} (hw : 1 ≤ w) : aluMult w (2 ^ w - 1) (2 ^ w - 1) = 1 := by
  obtain ⟨k, hk⟩ : ∃ k, 2 ^ w = k + 2 := Nat.exists_eq_add_of_le' (Nat.pow_le_pow_right Nat.two_pos hw)
  have hsquare : (k + 1) * (k + 1) = 1 + (k + 2) * k := by ring
  have hmax : k + 2 - 1 = k + 1 := rfl
  rw [aluMult, narrow, hk, hmax, hsquare, Nat.add_mul_mod_self_left, Nat.mod_eq_of_lt (by omega)]

theorem aluAdd_max_one (w : Nat) : aluAdd w (2 ^ w - 1) 1 = 0 := by
  rw [aluAdd, narrow, Nat.sub_add_cancel Nat.one_le_two_pow, Nat.mod_self]

theorem aluMult_half_two {w : Nat} (hw : 1 ≤ w) : aluMult w (2 ^ (w - 1)) 2 = 0 := by
  rw [aluMult, narrow, ← Nat.pow_succ, Nat.succ_eq_add_one, Nat.sub_add_cancel hw, Nat.mod_self]

/-- Settles O12: the rows of the table. -/
theorem aluResultTable : Obligations.AluResultTable := by
  intro w x y hw hx hy
  have hmulOne : aluMult w x 1 = x := by rw [aluMult, Nat.mul_one, narrow_of_fits hx]
  have hmulZero : aluMult w x 0 = 0 := Nat.zero_mod _
  exact ⟨aluAdd_eq_ite hx hy, narrow_of_fits, ⟨_, mul_eq_add_aluMult w x y⟩, narrow_fits w (x * y),
    narrow_of_fits hx, aluAdd_comm w x y, hmulZero, hmulOne, aluMult_comm w x y, aluAdd_max_one w,
    aluMult_max_max hw, aluMult_half_two hw⟩

end Sys2Proof.Machine
end

section
/-! SUPPORT. The instructions as `exec` runs them in any state (log 7): ADD and MULT are the shared procedure of
40_arithmetic.md R57, and HALT is one update (41_control.md R67). -/

namespace Sys2Proof.Machine

/-- Settles O15: `exec` of HALT is `State.halt`. -/
theorem haltCompletes : Obligations.HaltCompletes := fun _ => rfl

/-- Every check of the procedure passes, and the completed state sets one cell and `ip`. -/
theorem quadExecute_completes {s : State} {a b c va vb : Nat} (f : Nat → Nat → Nat)
    (hw : s.ip + 3 < s.mem.len) (hva : s.mem.read a = some va) (hvb : s.mem.read b = some vb)
    (hc : c < s.mem.len) :
    ∃ t, quadExecute f a b c s = .next t ∧ t.mem.read c = some (f va vb) ∧
      (∀ x, x ≠ c → t.mem.read x = s.mem.read x) ∧ t.mem.len = s.mem.len ∧ t.width = s.width ∧
      t.ip = s.ip + 4 ∧ t.state = s.state ∧ t.fcause = s.fcause ∧ t.fvalue = s.fvalue :=
  ⟨completed s c (f va vb), quadExecute_of_all_exist f hw hva hvb hc, read_set_same hc _,
    fun _ hx => read_set_other hx s.mem _, rfl, rfl, rfl, rfl, rfl, rfl⟩

/-- Settles O13: the shared procedure with `f_ADD`. -/
theorem addCompletesWithSum : Obligations.AddCompletesWithSum :=
  fun s _ _ _ _ _ => quadExecute_completes (aluAdd s.width)

/-- Settles O14: the shared procedure with `f_MULT`. -/
theorem multCompletesWithProduct : Obligations.MultCompletesWithProduct :=
  fun s _ _ _ _ _ => quadExecute_completes (aluMult s.width)

/-- ADD and MULT differ in the ALU function only. -/
theorem exists_exec_eq_quadExecute {i : Instr} {a b c : Nat} (hi : i = .add a b c ∨ i = .mult a b c)
    (s : State) : ∃ f, exec i s = quadExecute f a b c s := by
  rcases hi with rfl | rfl
  · exact ⟨aluAdd s.width, rfl⟩
  · exact ⟨aluMult s.width, rfl⟩

/-- Settles O16: the four checks of the procedure, each reached when those before it pass. -/
theorem quadFaultsInOrder : Obligations.QuadFaultsInOrder := by
  intro s a b c i hi
  obtain ⟨f, hexec⟩ := exists_exec_eq_quadExecute hi s
  rw [hexec]
  exact ⟨quadExecute_of_window_cut_off f, quadExecute_of_first_source_missing f,
    quadExecute_of_second_source_missing f, quadExecute_of_destination_missing f⟩

/-- Settles O17: the procedure ends in a raise, which keeps memory, or in the completed state. -/
theorem quadFrame : Obligations.QuadFrame := by
  intro s t a b c i hi h
  obtain ⟨f, hexec⟩ := exists_exec_eq_quadExecute hi s
  obtain ⟨x, -, -, rfl⟩ | ⟨-, -, -, -, rfl⟩ := quadExecute_cases (hexec.symm.trans h)
  · exact ⟨fun _ _ => rfl, rfl, rfl, .inr ⟨rfl, rfl, rfl, rfl⟩⟩
  · exact ⟨fun x hx => read_set_other hx s.mem _, rfl, rfl, .inl ⟨rfl, rfl, rfl, rfl⟩⟩

end Sys2Proof.Machine
end

section
/-! SUPPORT. What every step keeps and what its end tells: the run state (10_state.md R18), `ip` (R16, R17), the
parameters (R15, R24), and the cause a fault records (60_exceptions.md R76, R82). -/

namespace Sys2Proof.Machine

/-! ### Where a step exists -/

theorem step_of_halted {s : State} (hs : s.state = .halted) : step s = .fault .noStepWhenHalted := by
  rw [step, hs]

/-- Settles O27: one case per run state. -/
theorem stepExistsExactlyWhenRunning : Obligations.StepExistsExactlyWhenRunning := by
  refine fun s => ⟨⟨fun ⟨_, h⟩ => running_of_step h, step_has_next⟩, fun r => ?_, step_of_halted,
    step_of_faulted⟩
  cases hs : s.state with
  | running =>
    obtain ⟨t, h⟩ := step_has_next hs
    simp [h]
  | halted => simp [step_of_halted hs]
  | faulted => simp [step_of_faulted hs]

/-! ### `ip` and the parameters -/

/-- Only a completed ADD or MULT moves `ip` or writes a cell. -/
theorem StepResult.ip_and_mem_of_not_running {s t : State} (hrun : s.state = .running)
    (h : StepResult s t) (ht : t.state ≠ .running) : t.ip = s.ip ∧ t.mem = s.mem := by
  cases h with
  | completed => exact absurd hrun ht
  | fetchFault | invalidOpcode | halt | windowFault | operandFault => exact ⟨rfl, rfl⟩

/-- Settles O30: a step that leaves the machine RUNNING has passed a whole window, and any other keeps `ip`. -/
theorem ipAdvancesByFourOnCompletion : Obligations.IpAdvancesByFourOnCompletion := by
  intro s t h
  have hres := stepResult_of_step h
  refine ⟨fun ht => ?_, fun ht => (hres.ip_and_mem_of_not_running (running_of_step h) ht).1⟩
  obtain ⟨hwindow, hip, hlen⟩ := hres.window_and_ip_of_running ht
  exact ⟨hip, by omega⟩

theorem StepResult.parameters {s t : State} (h : StepResult s t) :
    t.width = s.width ∧ t.mem.len = s.mem.len := by
  cases h with
  | fetchFault | invalidOpcode | halt | windowFault | operandFault | completed => exact ⟨rfl, rfl⟩

/-- Settles O31: no operation of a step writes the width or LEN. -/
theorem parametersNeverChange : Obligations.ParametersNeverChange :=
  fun _ _ h => (stepResult_of_step h).parameters

/-! ### The end of a step -/

/-- Settles O32: each way into FAULTED with the opcode it needs. -/
theorem faultNeedsItsCause : Obligations.FaultNeedsItsCause := by
  intro s t h ht
  cases stepResult_of_step h with
  | fetchFault hip => exact .inr ⟨rfl, hip, .inl (read_eq_none.2 hip)⟩
  | invalidOpcode hread hv => exact .inl ⟨rfl, hread, hv⟩
  | halt => simp at ht
  | windowFault hop hwindow => exact .inr ⟨rfl, le_rfl, .inr hop.opcode⟩
  | operandFault hop _ _ _ _ hx => exact .inr ⟨rfl, hx, .inr hop.opcode⟩
  | completed => simp [running_of_step h] at ht

/-- Settles O48: the report reads the registers a raise wrote, and a raise keeps `ip`. -/
theorem reportNamesCauseAndPosition : Obligations.ReportNamesCauseAndPosition := by
  intro s t h
  refine ⟨fun ht => by rw [report, ht], fun ht => by rw [report, ht], fun ht => ?_⟩
  obtain ⟨v, rfl, hread⟩ | ⟨x, rfl, hx, -⟩ :=
    (stepResult_of_step h).faulted_cases (running_of_step h) ht
  · exact .inl ⟨v, rfl, hread⟩
  · exact .inr ⟨x, rfl, hx⟩

end Sys2Proof.Machine
end

section
/-! SUPPORT. Two states whose steps correspond: `StepResult` is exactly the step, so a step is carried over by carrying
over its case. The fault registers are invisible to it (10_state.md R14), and a wider cell changes only what
overflows (93_implementation_defined.md U2). -/

namespace Sys2Proof.Machine

/-- `StepResult` has no case that is not the step's. -/
theorem StepResult.step_eq {s t : State} (hs : s.state = .running) (h : StepResult s t) :
    step s = .next t := by
  cases h with
  | fetchFault hip => exact step_of_fetch_missing hs hip
  | invalidOpcode hread hv => exact step_of_invalid_opcode hs hread hv
  | halt hread => exact step_of_haltsNext hs hread
  | windowFault hop hwindow =>
    exact (step_of_selectsQuad hs hop).trans (quadExecute_of_window_cut_off _ hwindow)
  | @operandFault f k x hop hwindow hk hbefore hread hx =>
    obtain ⟨-, rfl⟩ := read_eq_some.1 hread
    rw [step_of_selectsQuad hs hop]
    obtain rfl | rfl | rfl : k = 1 ∨ k = 2 ∨ k = 3 := by omega
    · exact quadExecute_of_first_source_missing f hwindow hx
    · exact quadExecute_of_second_source_missing f hwindow (hbefore 1 (by decide) (by decide)) hx
    · exact quadExecute_of_destination_missing f hwindow (hbefore 1 (by decide) (by decide))
        (hbefore 2 (by decide) (by decide)) hx
  | completed hop hreadA hreadB hreadC ha hb hc =>
    rw [step_of_selectsQuad_of_reads hs hop hreadA hreadB hreadC]
    exact quadExecute_of_all_exist _ (read_eq_some.1 hreadC).1 (read_eq_some.2 ⟨ha, rfl⟩)
      (read_eq_some.2 ⟨hb, rfl⟩) hc

/-! ### The fault registers -/

/-- `s` with other fault registers. -/
def State.withFaultRegisters (s : State) (cause : FaultCause) (info : Nat) : State :=
  { s with fcause := cause, fvalue := info }

/-- No condition of a step reads the fault registers. -/
theorem StepResult.withFaultRegisters {s t : State} (h : StepResult s t) (cause : FaultCause)
    (info : Nat) : ∃ u, StepResult (s.withFaultRegisters cause info) u ∧
      t.mem = u.mem ∧ t.ip = u.ip ∧ t.state = u.state := by
  cases h with
  | fetchFault hip => exact ⟨_, .fetchFault hip, rfl, rfl, rfl⟩
  | invalidOpcode hread hv => exact ⟨_, .invalidOpcode hread hv, rfl, rfl, rfl⟩
  | halt hread => exact ⟨_, .halt hread, rfl, rfl, rfl⟩
  | windowFault hop hwindow => exact ⟨_, .windowFault hop hwindow, rfl, rfl, rfl⟩
  | operandFault hop hwindow hk hbefore hread hx =>
    exact ⟨_, .operandFault hop hwindow hk hbefore hread hx, rfl, rfl, rfl⟩
  | completed hop hreadA hreadB hreadC ha hb hc =>
    exact ⟨_, .completed hop hreadA hreadB hreadC ha hb hc, rfl, rfl, rfl⟩

/-- Settles O37: the step's case is the same with any fault registers. -/
theorem faultRegistersAreInvisible : Obligations.FaultRegistersAreInvisible := by
  intro s cause info hs
  obtain ⟨t, h⟩ := step_has_next hs
  obtain ⟨u, hu, hsame⟩ := (stepResult_of_step h).withFaultRegisters cause info
  exact ⟨t, u, h, hu.step_eq hs, hsame⟩

/-! ### The cell width -/

/-- `s` with cells of `w` bits. -/
def State.withWidth (s : State) (w : Nat) : State := { s with width := w }

theorem SelectsQuad.exists_withWidth {s : State} {f : Nat → Nat → Nat} (hop : SelectsQuad s f)
    (w : Nat) : ∃ g, SelectsQuad (s.withWidth w) g := by
  rcases hop with ⟨hread, -⟩ | ⟨hread, -⟩
  · exact ⟨_, .inl ⟨hread, rfl⟩⟩
  · exact ⟨_, .inr ⟨hread, rfl⟩⟩

/-- A number that fits is the same in every wider cell. -/
theorem narrow_eq_narrow_of_le {v w n : Nat} (hn : ¬ 2 ^ v ≤ n) (hw : v ≤ w) : narrow w n = narrow v n := by
  have hfit : Fits v n := Nat.lt_of_not_le hn
  rw [narrow_of_fits hfit, narrow_of_fits (hfit.trans_le (Nat.pow_le_pow_right Nat.two_pos hw))]

/-- Where the ADD or MULT at `ip` does not overflow, the operation of a wider cell gives its result. -/
theorem SelectsQuad.exists_withWidth_same_result {s : State} {f : Nat → Nat → Nat} {a b c w : Nat}
    (hop : SelectsQuad s f) (hreadA : s.mem.read (s.ip + 1) = some a)
    (hreadB : s.mem.read (s.ip + 2) = some b) (hreadC : s.mem.read (s.ip + 3) = some c)
    (hw : s.width ≤ w) (hno : s.stepOverflows = false) :
    ∃ g, SelectsQuad (s.withWidth w) g ∧
      g (s.mem.cell a) (s.mem.cell b) = f (s.mem.cell a) (s.mem.cell b) := by
  have hip : ¬ s.mem.len ≤ s.ip := Nat.not_le.2 hop.ip_lt
  obtain ⟨hwindow, rfl⟩ := read_eq_some.1 hreadC
  obtain ⟨-, rfl⟩ := read_eq_some.1 hreadA
  obtain ⟨-, rfl⟩ := read_eq_some.1 hreadB
  rw [State.stepOverflows, decode_fetchWindow, if_neg hip] at hno
  rcases hop with ⟨hread, rfl⟩ | ⟨hread, rfl⟩
  · simp only [decodeOpcode_eq_add.2 (read_eq_some.1 hread).2, if_neg (Nat.not_le.2 hwindow),
      addOverflows, decide_eq_false_iff_not] at hno
    exact ⟨aluAdd w, .inl ⟨hread, rfl⟩, narrow_eq_narrow_of_le hno hw⟩
  · simp only [decodeOpcode_eq_mult.2 (read_eq_some.1 hread).2, if_neg (Nat.not_le.2 hwindow),
      multOverflows, decide_eq_false_iff_not] at hno
    exact ⟨aluMult w, .inr ⟨hread, rfl⟩, narrow_eq_narrow_of_le hno hw⟩

/-- The width enters a step only through the result of a completing ADD or MULT. -/
theorem StepResult.withWidth {s t : State} {w : Nat} (h : StepResult s t) (hw : s.width ≤ w)
    (hno : s.stepOverflows = false) : StepResult (s.withWidth w) (t.withWidth w) := by
  cases h with
  | fetchFault hip => exact .fetchFault hip
  | invalidOpcode hread hv => exact .invalidOpcode hread hv
  | halt hread => exact .halt hread
  | windowFault hop hwindow =>
    obtain ⟨g, hg⟩ := hop.exists_withWidth w
    exact .windowFault hg hwindow
  | operandFault hop hwindow hk hbefore hread hx =>
    obtain ⟨g, hg⟩ := hop.exists_withWidth w
    exact .operandFault hg hwindow hk hbefore hread hx
  | completed hop hreadA hreadB hreadC ha hb hc =>
    obtain ⟨g, hg, hsame⟩ := hop.exists_withWidth_same_result hreadA hreadB hreadC hw hno
    rw [← hsame]
    exact .completed hg hreadA hreadB hreadC ha hb hc

/-- Settles O38: the step's case is the same at every larger width. -/
theorem widerCellsSameStepWithoutOverflow : Obligations.WiderCellsSameStepWithoutOverflow :=
  fun s _ w hw hno h =>
    have hs : (s.withWidth w).state = .running := running_of_step (s := s) h
    ((stepResult_of_step h).withWidth hw hno).step_eq hs

end Sys2Proof.Machine
end

section
/-! SUPPORT. An instruction that meets its own cells or those of the next (20_memory.md section 7, 40_arithmetic.md
R63): a completed step by the cells its addresses name, and the window the next step fetches. -/

namespace Sys2Proof.Machine

/-- The operation of an ADD or MULT opcode, its ALU function written out. -/
theorem selectsQuad_of_opcode {s : State} {op : Nat} {f : Nat → Nat → Nat}
    (hread : s.mem.read s.ip = some op)
    (hopf : (op = 1 ∧ f = fun x y => (x + y) % 2 ^ s.width) ∨
      (op = 2 ∧ f = fun x y => (x * y) % 2 ^ s.width)) : SelectsQuad s f := by
  rcases hopf with ⟨rfl, rfl⟩ | ⟨rfl, rfl⟩
  · exact .inl ⟨hread, rfl⟩
  · exact .inr ⟨hread, rfl⟩

theorem step_eq_completed {s : State} {f : Nat → Nat → Nat} {a b c va vb : Nat}
    (hs : s.state = .running) (hop : SelectsQuad s f) (hfieldA : s.mem.read (s.ip + 1) = some a)
    (hfieldB : s.mem.read (s.ip + 2) = some b) (hfieldC : s.mem.read (s.ip + 3) = some c)
    (hva : s.mem.read a = some va) (hvb : s.mem.read b = some vb) (hc : c < s.mem.len) :
    step s = .next (completed s c (f va vb)) := by
  rw [step_of_selectsQuad_of_reads hs hop hfieldA hfieldB hfieldC,
    quadExecute_of_all_exist f (read_eq_some.1 hfieldC).1 hva hvb hc]

/-- What the opcode at `ip` decides, for each value it can have (41_control.md R64). -/
theorem step_of_opcode {s : State} {v : Nat} (hs : s.state = .running) (hread : s.mem.read s.ip = some v) :
    (v = 99 → step s = .next s.halt) ∧
      (v ≠ 1 → v ≠ 2 → v ≠ 99 → step s = .next (s.raise (.invalidOpcode v))) ∧
      (v = 1 ∨ v = 2 → s.mem.len ≤ s.ip + 3 →
        step s = .next (s.raise (.addressOutOfRange s.mem.len))) ∧
      ∀ {a b c}, s.mem.read (s.ip + 1) = some a → s.mem.read (s.ip + 2) = some b →
        s.mem.read (s.ip + 3) = some c →
        (v = 1 → step s = exec (.add a b c) s) ∧ (v = 2 → step s = exec (.mult a b c) s) := by
  refine ⟨?_, fun h1 h2 h99 => step_of_invalid_opcode hs hread ⟨h1, h2, h99⟩, ?_, ?_⟩
  · rintro rfl
    exact step_of_haltsNext hs hread
  · intro hop hcut
    obtain ⟨f, hf⟩ := exists_selectsQuad hread hop
    exact (step_of_selectsQuad hs hf).trans (quadExecute_of_window_cut_off f hcut)
  · intro a b c ha hb hc
    constructor
    · rintro rfl
      exact step_of_selectsQuad_of_reads hs (.inl ⟨hread, rfl⟩) ha hb hc
    · rintro rfl
      exact step_of_selectsQuad_of_reads hs (.inr ⟨hread, rfl⟩) ha hb hc

/-- Settles O35: the step completes, and the next one finds the stored cell at `ip` and the cells behind it as they
were. -/
theorem storeAheadDecidesNextStep : Obligations.StoreAheadDecidesNextStep := by
  intro s op a b va vb f hs hread hopf hfieldA hfieldB hfieldC hva hvb hnext
  have hstep := step_eq_completed hs (selectsQuad_of_opcode hread hopf) hfieldA hfieldB hfieldC hva hvb hnext
  have hstored : (s.mem.set (s.ip + 4) (f va vb)).read (s.ip + 4) = some (f va vb) :=
    read_set_same hnext _
  have hkeep : ∀ k, 4 < k → (s.mem.set (s.ip + 4) (f va vb)).read (s.ip + k) = s.mem.read (s.ip + k) :=
    fun k hk => read_set_other (by omega) s.mem _
  obtain ⟨hhalt, hinvalid, hcut, hquad⟩ :=
    step_of_opcode (s := completed s (s.ip + 4) (f va vb)) hs hstored
  exact ⟨_, hstep, rfl, hstored, hhalt, hinvalid, hcut, fun a' b' c' ha hb hc =>
    hquad ((hkeep 5 (by decide)).trans ha) ((hkeep 6 (by decide)).trans hb)
      ((hkeep 7 (by decide)).trans hc)⟩

/-! ### The window after a store -/

/-- A store before the next window leaves it as it was. -/
theorem fetchWindow_completed_of_lt {s : State} {c : Nat} (hc : c < s.ip + 4) (v : Nat) :
    fetchWindow (completed s c v) = fetchWindow { s with ip := s.ip + 4 } := by
  refine List.ext_getElem? fun k => ?_
  have hread : (s.mem.set c v).read (s.ip + 4 + k) = s.mem.read (s.ip + 4 + k) :=
    read_set_other (by omega) s.mem v
  simp [getElem?_fetchWindow, hread]

/-- A store into the next window is fetched from it. -/
theorem getElem?_fetchWindow_completed {s : State} {k : Nat} (hk : k < 4)
    (hc : s.ip + 4 + k < s.mem.len) (v : Nat) :
    (fetchWindow (completed s (s.ip + 4 + k) v))[k]? = some v := by
  rw [getElem?_fetchWindow, if_pos hk]
  exact read_set_same hc v

/-- Settles O36: a completed step writes `f va vb` to `c`; where addresses coincide, the values read there do. -/
theorem aliasingCases : Obligations.AliasingCases := by
  intro s op a b c va vb f hs hread hopf hfieldA hfieldB hfieldC hva hvb hc
  have hvalue : ∀ {x y vx vy : Nat}, s.mem.read x = some vx → s.mem.read y = some vy → x = y → vx = vy := by
    rintro x _ vx vy hx hy rfl
    exact Option.some.inj (hx.symm.trans hy)
  have hresult : (completed s c (f va vb)).mem.read c = some (f va vb) := read_set_same hc _
  refine ⟨_, step_eq_completed hs (selectsQuad_of_opcode hread hopf) hfieldA hfieldB hfieldC hva hvb hc,
    fun h => ?_, fun h => h ▸ hresult, fun h => h ▸ hresult, fun h => ?_, fun h => ?_, fun h => ?_,
    fun h => ?_, fun h => ?_, fun _ h => ⟨hresult, fetchWindow_completed_of_lt (by omega) _⟩, ?_,
    fun h => fetchWindow_completed_of_lt (by omega) _⟩
  · obtain rfl := hvalue hva hvb h
    exact hresult
  · obtain rfl := hvalue hva hread h
    exact hresult
  · obtain rfl := hvalue hvb hread h
    exact hresult
  · obtain rfl := hvalue hva hfieldA h
    exact hresult
  · obtain rfl := hvalue hvb hfieldB h
    exact hresult
  · obtain rfl := hvalue hva hfieldC h
    exact hresult
  · rintro k hk rfl
    exact getElem?_fetchWindow_completed hk hc _

end Sys2Proof.Machine
end

section
/-! SUPPORT. A run as its steps (41_control.md R71): its last step, where `ip` stands in it, the cells it changes, and
the result at its end (70_reset_and_hazards.md R85, R106, R107, 41_control.md R72). -/

namespace Sys2Proof.Machine

/-! ### The steps of a run -/

theorem runSteps_add (m n : Nat) (s : State) : runSteps (m + n) s = runSteps n (runSteps m s) := by
  induction m generalizing s with
  | zero => rw [Nat.zero_add, runSteps]
  | succ m ih =>
    by_cases hs : s.state = .running
    · obtain ⟨t, hstep⟩ := step_has_next hs
      rw [Nat.add_right_comm, runSteps_succ_of_step hstep, runSteps_succ_of_step hstep, ih]
    · rw [runSteps_of_not_running hs, runSteps_of_not_running hs, runSteps_of_not_running hs]

theorem step_runSteps {s : State} {n : Nat} (hrun : (runSteps n s).state = .running) :
    step (runSteps n s) = .next (runSteps (n + 1) s) := by
  obtain ⟨t, hstep⟩ := step_has_next hrun
  rw [runSteps_add, runSteps_succ_of_step hstep, hstep, runSteps]

/-- A run that has ended has reached its one end. -/
theorem runToEnd_eq_runSteps {s : State} {n : Nat} (hend : (runSteps n s).state ≠ .running) :
    runToEnd s = runSteps n s := by
  rcases Nat.le_total n (stepBound s) with hle | hle
  · obtain ⟨k, hk⟩ := Nat.exists_eq_add_of_le hle
    rw [runToEnd, hk, runSteps_add, runSteps_of_not_running hend]
  · obtain ⟨k, rfl⟩ := Nat.exists_eq_add_of_le hle
    rw [runSteps_add]
    exact (runSteps_of_not_running (runToEnd_not_running s) k).symm

/-- The last step of a run: the machine is RUNNING up to it, and there are windows enough before it. -/
theorem exists_last_step {s : State} (hs : s.state = .running) :
    ∃ n, n ≤ (s.mem.len - s.ip) / 4 ∧ (∀ k, k ≤ n → (runSteps k s).state = .running) ∧
      (runSteps (n + 1) s).state ≠ .running := by
  have hbound : (runSteps ((s.mem.len - s.ip) / 4 + 1) s).state ≠ .running :=
    runSteps_not_running_of_len_lt (by omega)
  have hends : ∃ n, (runSteps (n + 1) s).state ≠ .running := ⟨_, hbound⟩
  refine ⟨Nat.find hends, Nat.find_min' hends hbound, fun k hk => ?_, Nat.find_spec hends⟩
  cases k with
  | zero => exact hs
  | succ k => exact not_not.1 (Nat.find_min hends hk)

/-- Settles O43: the state after the last step. -/
theorem runEndsWithinBound : Obligations.RunEndsWithinBound := by
  intro s hs
  obtain ⟨n, hn, hrun, hend⟩ := exists_last_step hs
  exact ⟨n + 1, Nat.succ_pos n, Nat.succ_le_succ hn, hend, fun k hk => hrun k (Nat.le_of_lt_succ hk),
    runToEnd_eq_runSteps hend⟩

/-! ### `ip` during a run (60_exceptions.md R85) -/

theorem runSteps_ip_of_running {s : State} {n : Nat} (hrun : (runSteps n s).state = .running) :
    (runSteps n s).ip = s.ip + 4 * n := by
  induction n with
  | zero => rfl
  | succ n ih =>
    have hbefore : (runSteps n s).state = .running := by
      by_contra hend
      rw [runSteps_add, runSteps_of_not_running hend] at hrun
      exact hend hrun
    have hip := ((ipAdvancesByFourOnCompletion _ _ (step_runSteps hbefore)).1 hrun).1
    rw [hip, ih hbefore]
    ring

/-- Settles O44: each step that leaves the machine RUNNING adds 4, and the last one keeps `ip`. -/
theorem ipCountsCompletedInstructions : Obligations.IpCountsCompletedInstructions := by
  refine fun s n _ => ⟨runSteps_ip_of_running, fun hrun hend => ?_⟩
  rw [runToEnd_eq_runSteps hend, (ipAdvancesByFourOnCompletion _ _ (step_runSteps hrun)).2 hend,
    runSteps_ip_of_running hrun]

/-! ### The cells a run changes -/

/-- The addresses of `m` that read otherwise in `n`. -/
def changedCells (m n : Memory) : Finset Nat := (Finset.range m.len).filter fun a => n.read a ≠ m.read a

theorem mem_changedCells {m n : Memory} {a : Nat} :
    a ∈ changedCells m n ↔ a < m.len ∧ n.read a ≠ m.read a := by
  simp [changedCells]

theorem changedCells_self (m : Memory) : changedCells m m = ∅ := by
  simp [changedCells]

/-- A memory that differs from `m` in one cell accounts for every change but that one. -/
theorem card_changedCells_le_succ {m m' n : Memory} {c : Nat} (hlen : m'.len = m.len)
    (hread : ∀ x, x ≠ c → m'.read x = m.read x) :
    (changedCells m n).card ≤ (changedCells m' n).card + 1 := by
  have hsub : changedCells m n ⊆ insert c (changedCells m' n) := by
    intro x hx
    obtain ⟨hlt, hne⟩ := mem_changedCells.1 hx
    by_cases hxc : x = c
    · exact Finset.mem_insert.2 (.inl hxc)
    · exact Finset.mem_insert_of_mem (mem_changedCells.2 ⟨hlen ▸ hlt, hread x hxc ▸ hne⟩)
  exact (Finset.card_le_card hsub).trans (Finset.card_insert_le _ _)

theorem StepResult.exists_read_eq_of_ne {s t : State} (h : StepResult s t) :
    ∃ c, ∀ x, x ≠ c → t.mem.read x = s.mem.read x := by
  cases h with
  | completed => exact ⟨_, fun x hx => read_set_other hx s.mem _⟩
  | fetchFault | invalidOpcode | halt | windowFault | operandFault => exact ⟨0, fun _ _ => rfl⟩

/-- Each step that changes a cell uses up a window of four. -/
theorem card_changedCells_runSteps_le (n : Nat) (s : State) :
    (changedCells s.mem (runSteps n s).mem).card ≤ (s.mem.len - s.ip) / 4 := by
  induction n generalizing s with
  | zero => simp [runSteps, changedCells_self]
  | succ n ih =>
    by_cases hs : s.state = .running
    · obtain ⟨t, hstep⟩ := step_has_next hs
      have hres := stepResult_of_step hstep
      rw [runSteps_succ_of_step hstep]
      by_cases ht : t.state = .running
      · obtain ⟨hwindow, hip, hlen⟩ := hres.window_and_ip_of_running ht
        obtain ⟨c, hread⟩ := hres.exists_read_eq_of_ne
        have hstepCard := card_changedCells_le_succ (n := (runSteps n t).mem) hlen hread
        have hrest := ih t
        omega
      · rw [runSteps_of_not_running ht, (hres.ip_and_mem_of_not_running hs ht).2]
        simp [changedCells_self]
    · rw [runSteps_of_not_running hs]
      simp [changedCells_self]

/-- Settles O45: the count over the whole run, from any `ip`. -/
theorem runChangesFewCells : Obligations.RunChangesFewCells := fun s _ =>
  calc (changedCells s.mem (runToEnd s).mem).card ≤ (s.mem.len - s.ip) / 4 :=
        card_changedCells_runSteps_le (stepBound s) s
    _ ≤ s.mem.len / 4 := Nat.div_le_div_right (Nat.sub_le _ _)

/-! ### The result of a run (41_control.md R72) -/

theorem hostResult_of_halted {s : State} (hs : s.state = .halted) : hostResult s = s.mem.read 0 := by
  rw [hostResult, hs, resultAddress]

/-- Settles O46: one case per run state. -/
theorem resultOnlyFromHalted : Obligations.ResultOnlyFromHalted := by
  refine fun s => ⟨hostResult_of_halted, fun hs => ?_⟩
  cases hstate : s.state with
  | halted => exact absurd hstate hs
  | running => rw [hostResult, hstate]
  | faulted => exact hostResult_of_faulted hstate

/-- Settles O47: the last step is a HALT at the 99, and a memory that holds a 99 has a cell at address 0. -/
theorem goodEndHasResult : Obligations.GoodEndHasResult := by
  intro s hs hhalt
  obtain ⟨n, -, hrun, hend⟩ := exists_last_step hs
  have hlast : step (runSteps n s) = .next (runToEnd s) :=
    runToEnd_eq_runSteps hend ▸ step_runSteps (hrun n le_rfl)
  obtain ⟨-, hread⟩ := (terminalIpIsPosition _ _ hlast).1 hhalt
  have hzero : (runToEnd s).mem.read 0 = some ((runToEnd s).mem.cell 0) :=
    read_eq_some.2 ⟨Nat.zero_lt_of_lt (read_eq_some.1 hread).1, rfl⟩
  exact ⟨hread, _, hzero, (hostResult_of_halted hhalt).trans hzero⟩

/-- A run ends HALTED with a result or FAULTED without one. -/
theorem hostResult_runToEnd_eq_none {s : State} (hs : s.state = .running) :
    hostResult (runToEnd s) = none ↔ (runToEnd s).state = .faulted := by
  cases hstate : (runToEnd s).state with
  | running => exact absurd hstate (runToEnd_not_running s)
  | halted =>
    obtain ⟨-, r, -, hres⟩ := goodEndHasResult s hs hstate
    simp [hres]
  | faulted => simp [hostResult_of_faulted hstate]

end Sys2Proof.Machine
end

section
/-! SUPPORT. The seeded run (70_reset_and_hazards.md R96) and how the parameter search ends without a match (R98, R100,
D19). -/

namespace Sys2Proof.Machine

/-! ### The seeded run -/

theorem seed_read {m : Memory} (hlen : 3 ≤ m.len) (noun verb : Nat) :
    (m.seed noun verb).read 1 = some noun ∧ (m.seed noun verb).read 2 = some verb ∧
      ∀ i, i ≠ 1 → i ≠ 2 → (m.seed noun verb).read i = m.read i := by
  have hnoun : 1 < m.len := by omega
  have hverb : 2 < (m.set 1 noun).len := hlen
  refine ⟨?_, read_set_same hverb verb, fun i h1 h2 => ?_⟩
  · exact (read_set_other (by decide) _ verb).trans (read_set_same hnoun noun)
  · exact (read_set_other h2 _ verb).trans (read_set_other h1 m noun)

section SeededRun

variable {w : Nat} {template : List Nat} {noun verb : Nat}

/-- A refused start is a refused run. -/
theorem refused_of_seededStart {r : Refusal} (h : seededStart w template noun verb = .error r) :
    seededStart w template noun verb = .error r ∧ seededRun w template noun verb = .error r :=
  ⟨h, by rw [seededRun, h]⟩

theorem seededRun_of_seededStart {s : State} (h : seededStart w template noun verb = .ok s) :
    seededRun w template noun verb = .ok (runToEnd s) := by
  rw [seededRun, h]

theorem exists_start_of_seededRun {t : State} (h : seededRun w template noun verb = .ok t) :
    ∃ s, s.state = .running ∧ t = runToEnd s := by
  cases hstart : seededStart w template noun verb with
  | error r => simp [(refused_of_seededStart hstart).2] at h
  | ok s =>
    obtain ⟨-, -, -, -, rfl⟩ := seededStart_eq_ok hstart
    rw [seededRun_of_seededStart hstart] at h
    exact ⟨_, rfl, (Except.ok.inj h).symm⟩

theorem seededRun_hostResult_eq_none {t : State} (h : seededRun w template noun verb = .ok t) :
    hostResult t = none ↔ t.state = .faulted := by
  obtain ⟨s, hs, rfl⟩ := exists_start_of_seededRun h
  exact hostResult_runToEnd_eq_none hs

end SeededRun

/-- Settles O49: the three refusals in their order, then the start on the seeded copy and the end of its run. -/
theorem seededRunProtocol : Obligations.SeededRunProtocol := by
  intro w template noun verb
  refine ⟨fun hshort => refused_of_seededStart (seededStart_of_short hshort),
    fun hlong r hload => refused_of_seededStart (seededStart_of_load_refused hlong hload),
    fun hlong hlen hfit hwide => refused_of_seededStart ?_, fun hlong hlen hfit hnoun hverb => ?_⟩
  · rw [seededStart_of_loadable hlong hlen hfit, if_neg (by omega)]
  · have hstart := seededStart_of_loadable (noun := noun) (verb := verb) hlong hlen hfit
    rw [if_pos ⟨hnoun, hverb⟩] at hstart
    have himage := ofImage_len template
    obtain ⟨hread1, hread2, hother⟩ := seed_read (himage ▸ hlong) noun verb
    exact ⟨_, _, hstart, rfl, himage, hread1, hread2,
      fun i h1 h2 => (hother i h1 h2).trans (ofImage_read template i), rfl, rfl, rfl, rfl,
      seededRun_of_seededStart hstart, rfl, runToEnd_not_running _,
      fun hhalt => (goodEndHasResult _ rfl hhalt).2, hostResult_of_faulted⟩

/-! ### A search without a match -/

/-- The candidate's run ends FAULTED, so that it has no result. -/
def FaultsAt (w : Nat) (template : List Nat) (p : Nat × Nat) : Prop :=
  ∃ t, seededRun w template p.1 p.2 = .ok t ∧ t.state = .faulted

section Search

variable {w : Nat} {template : List Nat} {target : Nat} {p : Nat × Nat}

theorem searchPairs_cons_of_faults (hp : FaultsAt w template p) (rest : List (Nat × Nat)) :
    searchPairs w template target (p :: rest) = .aborted p.1 p.2 := by
  obtain ⟨t, hrun, hstate⟩ := hp
  simp [searchPairs, hrun, hostResult_of_faulted hstate]

/-- A candidate that does not miss ends the search: it hits, faults or is refused. -/
theorem searchPairs_cons_of_not_misses (hp : ¬ MissesTarget w template target p)
    (rest : List (Nat × Nat)) :
    searchPairs w template target (p :: rest) = .found (encodeAnswer p.1 p.2) ∨
      (FaultsAt w template p ∧ searchPairs w template target (p :: rest) = .aborted p.1 p.2) ∨
      ∃ r, searchPairs w template target (p :: rest) = .refused r := by
  cases hrun : seededRun w template p.1 p.2 with
  | error r => exact .inr (.inr ⟨r, by simp [searchPairs, hrun]⟩)
  | ok t =>
    cases hres : hostResult t with
    | none =>
      have hfault : FaultsAt w template p := ⟨t, hrun, (seededRun_hostResult_eq_none hrun).1 hres⟩
      exact .inr (.inl ⟨hfault, searchPairs_cons_of_faults hfault rest⟩)
    | some r =>
      obtain rfl : r = target := by
        by_contra hne
        exact hp ⟨t, r, hrun, hres, hne⟩
      exact .inl (searchPairs_cons_of_hits ⟨t, hrun, hres⟩ rest)

theorem searchPairs_eq_exhausted {ps : List (Nat × Nat)} :
    searchPairs w template target ps = .exhausted ↔ ∀ q ∈ ps, MissesTarget w template target q := by
  constructor
  · intro h
    obtain hall | ⟨pre, p, post, rfl, hpre, hp⟩ := all_miss_or_first_not_miss w template target ps
    · exact hall
    · rw [searchPairs_append_of_misses hpre] at h
      obtain hend | ⟨-, hend⟩ | ⟨r, hend⟩ := searchPairs_cons_of_not_misses hp post
      · simp [hend] at h
      · simp [hend] at h
      · simp [hend] at h
  · intro hall
    simpa [searchPairs] using searchPairs_append_of_misses hall []

theorem searchPairs_eq_aborted {ps : List (Nat × Nat)} {noun verb : Nat} :
    searchPairs w template target ps = .aborted noun verb ↔
      ∃ pre post, ps = pre ++ (noun, verb) :: post ∧
        (∀ q ∈ pre, MissesTarget w template target q) ∧ FaultsAt w template (noun, verb) := by
  constructor
  · intro h
    obtain hall | ⟨pre, p, post, rfl, hpre, hp⟩ := all_miss_or_first_not_miss w template target ps
    · simp [searchPairs_eq_exhausted.2 hall] at h
    · rw [searchPairs_append_of_misses hpre] at h
      obtain hend | ⟨hfault, hend⟩ | ⟨r, hend⟩ := searchPairs_cons_of_not_misses hp post
      · simp [hend] at h
      · rw [hend] at h
        obtain ⟨rfl, rfl⟩ := SearchResult.aborted.inj h
        exact ⟨pre, post, rfl, hpre, hfault⟩
      · simp [hend] at h
  · rintro ⟨pre, post, rfl, hpre, hfault⟩
    rw [searchPairs_append_of_misses hpre, searchPairs_cons_of_faults hfault]

end Search

/-- What holds of every candidate that stands before `p` in the grid holds of all that row-major order puts there. -/
theorem exists_searchGrid_split_iff {P : Nat × Nat → Prop} {p : Nat × Nat} :
    (∃ pre post, searchGrid = pre ++ p :: post ∧ ∀ q ∈ pre, P q) ↔
      p ∈ searchGrid ∧ ∀ q ∈ searchGrid, RowMajorBefore q p → P q := by
  constructor
  · rintro ⟨pre, post, hgrid, hpre⟩
    exact ⟨by simp [hgrid], fun q hq hbefore =>
      hpre q ((mem_before_of_searchGrid_eq hgrid).2 ⟨hq, hbefore⟩)⟩
  · rintro ⟨hp, hbefore⟩
    obtain ⟨pre, post, hgrid⟩ := List.append_of_mem hp
    refine ⟨pre, post, hgrid, fun q hq => ?_⟩
    obtain ⟨hmem, hlt⟩ := (mem_before_of_searchGrid_eq hgrid).1 hq
    exact hbefore q hmem hlt

/-- A claim about every candidate of the grid, as one about nouns and verbs below 100. -/
theorem forall_mem_searchGrid {P : Nat × Nat → Prop} :
    (∀ q ∈ searchGrid, P q) ↔ ∀ n v, n < 100 → v < 100 → P (n, v) := by
  simp only [mem_searchGrid, Prod.forall, and_imp]

/-- Settles O51: the search over the grid ends as the search over any list does, and the grid is in row-major order. -/
theorem searchExhaustionAndAbort : Obligations.SearchExhaustionAndAbort := by
  refine fun w template target noun verb => ⟨searchPairs_eq_exhausted.trans forall_mem_searchGrid, ?_⟩
  have hsplit := exists_searchGrid_split_iff (P := MissesTarget w template target) (p := (noun, verb))
  rw [mem_searchGrid, forall_mem_searchGrid] at hsplit
  rw [findPair, searchPairs_eq_aborted]
  constructor
  · rintro ⟨pre, post, hgrid, hpre, hfault⟩
    obtain ⟨⟨hnoun, hverb⟩, hmiss⟩ := hsplit.1 ⟨pre, post, hgrid, hpre⟩
    exact ⟨hnoun, hverb, hfault, hmiss⟩
  · rintro ⟨hnoun, hverb, hfault, hmiss⟩
    obtain ⟨pre, post, hgrid, hpre⟩ := hsplit.2 ⟨⟨hnoun, hverb⟩, hmiss⟩
    exact ⟨pre, post, hgrid, hpre, hfault⟩

end Sys2Proof.Machine
end
